-- ==== Sys2Proof/Word.lean ====
section
/-! DEFINITION. The data widths of the core (spec/00_scope.md R9, R13; spec/10_state.md R20, R22):
bytes, words, 16-byte blocks, round keys, the expanded key, and the frames the channels carry. -/

namespace Sys2Proof

/-- An unsigned 8-bit value (R9). -/
abbrev Byte := BitVec 8

/-- An unsigned 32-bit value (R9). -/
abbrev Word := BitVec 32

/-- Sixteen bytes in index order: a block, a key, or the register file S (R13, R20, R21). -/
abbrev Block := Vector Byte 16

/-- Four words: one round key (R22). -/
abbrev RoundKey := Vector Word 4

/-- Forty-four words: the register file W (R22). -/
abbrev ExpandedKey := Vector Word 44

/-- A command or response frame: a finite byte sequence whose length the transport knows
(spec/30_encoding.md R70, R71, R73, R84). -/
abbrev Frame := List Byte

end Sys2Proof
end

