-- ==== Sys2Proof/Machine/Operands.lean ====
section
/-! DEFINITION. How bytes, words, blocks and round keys are read and laid out: bytes of a word
(spec/00_scope.md R10), the column-major grid (R13; spec/20_memory.md R49), operands from a payload and
results into a response (spec/30_encoding.md R77; spec/20_memory.md R48, R50). -/

namespace Sys2Proof.Machine

/-! ### Bytes and words (R10, R48) -/

/-- `byte(w, j)` = `w[31-8j : 24-8j]`: byte 0 is the most significant. -/
def byteOf (w : Word) (j : Fin 4) : Byte := w.extractLsb' (24 - 8 * j.val) 8

/-- `word(b0, b1, b2, b3)`: the big-endian packing. -/
def packWord (b0 b1 b2 b3 : Byte) : Word := b0 ++ b1 ++ b2 ++ b3

/-- A word as four bytes, most significant first. -/
def wordBytes (w : Word) : List Byte := [byteOf w 0, byteOf w 1, byteOf w 2, byteOf w 3]

/-! ### The 4×4 grid (R13, R49) -/

/-- The row of flat index `i`: `i mod 4`. -/
def rowOf (i : Fin 16) : Fin 4 := ⟨i.val % 4, by omega⟩

/-- The column of flat index `i`: `i div 4`. -/
def colOf (i : Fin 16) : Fin 4 := ⟨i.val / 4, by omega⟩

/-- The flat index of row `r`, column `c`: `r + 4c`. -/
def gridIndex (r c : Fin 4) : Fin 16 := ⟨r.val + 4 * c.val, by omega⟩

/-! ### Round keys (R22, R50) -/

/-- A number as a round-key number, which is 0..10. -/
def roundNumber (k : Nat) : Option (Fin 11) := if h : k < 11 then some ⟨k, h⟩ else none

/-- Round key `k`: the words `W[4k], W[4k+1], W[4k+2], W[4k+3]` (R22). -/
def roundKey (w : ExpandedKey) (k : Fin 11) : RoundKey :=
  Vector.ofFn fun c : Fin 4 => w[4 * k.val + c.val]

/-- A round key as sixteen bytes: byte `4c + r` is `byte(rk[c], r)` (R50). -/
def roundKeyBytes (rk : RoundKey) : Block := Vector.ofFn fun i => byteOf rk[colOf i] (rowOf i)

/-! ### Operands from a payload (R77) -/

/-- `P[i]`. The decoder has checked the payload's length, so the byte exists. -/
def payloadByte (p : List Byte) (i : Nat) : Byte := p.getD i 0

/-- The word operand `word(P[0], P[1], P[2], P[3])`. -/
def payloadWord (p : List Byte) : Word :=
  packWord (payloadByte p 0) (payloadByte p 1) (payloadByte p 2) (payloadByte p 3)

/-- The key or block operand: byte `i` is `P[i]`. -/
def payloadBlock (p : List Byte) : Block := Vector.ofFn fun i : Fin 16 => payloadByte p i.val

/-- The round-key number in an opcode byte: `op[3:0]` (R78). -/
def opcodeRound (op : Byte) : BitVec 4 := op.extractLsb' 0 4

/-! ### Results (R77) -/

/-- Sixteen bytes as a result, in index order. -/
def blockBytes (b : Block) : List Byte := b.toList

end Sys2Proof.Machine
end

