-- ==== Sys2Proof/Syntax.lean ====
section
/-! DEFINITION. The commands (one constructor per row of spec/opcode_table.json), their names, and the
status codes of responses. -/

namespace Sys2Proof

/-- A command with its operands (spec/30_encoding.md R76, R77). The payload length is the decoder's
check (R81), so an operand has the type its format gives it. -/
inductive Instr where
  | nop
  | status
  | clear
  | xtime (a : Byte)
  | gfmul (a b : Byte)
  | subbyte (a : Byte)
  | invsubbyte (a : Byte)
  | expandkey (key : Block)
  | rdrk (k : Byte)
  | rotword (w : Word)
  | subword (w : Word)
  | ldstate (block : Block)
  | rdstate
  | subbytes
  | invsubbytes
  | shiftrows
  | invshiftrows
  | mixcolumns
  | invmixcolumns
  /-- `k` is the opcode byte's low four bits, well formed when `k ≤ 10` (R78). -/
  | addroundkey (k : BitVec 4)
  | encrypt (block : Block)
  | decrypt (block : Block)
deriving DecidableEq, Repr

/-- The row of the opcode map a command belongs to (R76), without its operands. -/
inductive Op where
  | nop | status | clear
  | xtime | gfmul
  | subbyte | invsubbyte
  | expandkey | rdrk | rotword | subword
  | ldstate | rdstate | subbytes | invsubbytes
  | shiftrows | invshiftrows | mixcolumns | invmixcolumns
  | addroundkey
  | encrypt | decrypt
deriving DecidableEq, Repr

/-- The eight status codes of a response (spec/60_exceptions.md R220). -/
inductive Status where
  | ok
  | invalidKeyLength
  | invalidBlockLength
  | invalidOperandLength
  | noKey
  | noState
  | illegalOpcode
  | invalidRoundIndex
deriving DecidableEq, Repr

end Sys2Proof
end

