-- ==== Sys2Proof/WellFormed.lean ====
section
/-! DEFINITION. Which terms of `Instr` stand for a command of the opcode map. -/

namespace Sys2Proof

/-- The one check the operand types do not make: ADDROUNDKEY names one of the eleven round keys
(spec/30_encoding.md R78). RDRK's index is checked when it runs (spec/43_key_schedule.md R124). -/
def Instr.wellFormed : Instr → Bool
  | .addroundkey k => k ≤ 10#4
  | .nop | .status | .clear => true
  | .xtime _ | .gfmul _ _ => true
  | .subbyte _ | .invsubbyte _ => true
  | .expandkey _ | .rdrk _ | .rotword _ | .subword _ => true
  | .ldstate _ | .rdstate | .subbytes | .invsubbytes => true
  | .shiftrows | .invshiftrows | .mixcolumns | .invmixcolumns => true
  | .encrypt _ | .decrypt _ => true

end Sys2Proof
end

