-- ==== Sys2Proof/Decode.lean ====
section
/-! DEFINITION. The opcode map (spec/30_encoding.md R72, R74, R76), the decoder (R81), which is total on
byte sequences and rejects with a status code, and the encoder, written from the same map. -/

namespace Sys2Proof

open Sys2Proof.Machine

/-- One row of the opcode map: `match` and `mask` of the opcode byte, and the format `P<n>R<m>`. -/
structure OpRow where
  opMatch : Byte
  mask : Byte
  /-- The exact payload length, `n`. -/
  payload : Nat
  /-- The number of result bytes on success, `m`. -/
  result : Nat
deriving DecidableEq, Repr

/-- The opcode map of R76, row by row. -/
def Op.row : Op → OpRow
  | .nop           => ⟨0x00, 0xFF, 0, 0⟩
  | .status        => ⟨0x01, 0xFF, 0, 1⟩
  | .clear         => ⟨0x02, 0xFF, 0, 0⟩
  | .xtime         => ⟨0x10, 0xFF, 1, 1⟩
  | .gfmul         => ⟨0x11, 0xFF, 2, 1⟩
  | .subbyte       => ⟨0x20, 0xFF, 1, 1⟩
  | .invsubbyte    => ⟨0x21, 0xFF, 1, 1⟩
  | .expandkey     => ⟨0x30, 0xFF, 16, 0⟩
  | .rdrk          => ⟨0x31, 0xFF, 1, 16⟩
  | .rotword       => ⟨0x32, 0xFF, 4, 4⟩
  | .subword       => ⟨0x33, 0xFF, 4, 4⟩
  | .ldstate       => ⟨0x40, 0xFF, 16, 0⟩
  | .rdstate       => ⟨0x41, 0xFF, 0, 16⟩
  | .subbytes      => ⟨0x42, 0xFF, 0, 0⟩
  | .invsubbytes   => ⟨0x43, 0xFF, 0, 0⟩
  | .shiftrows     => ⟨0x44, 0xFF, 0, 0⟩
  | .invshiftrows  => ⟨0x45, 0xFF, 0, 0⟩
  | .mixcolumns    => ⟨0x46, 0xFF, 0, 0⟩
  | .invmixcolumns => ⟨0x47, 0xFF, 0, 0⟩
  | .addroundkey   => ⟨0x50, 0xF0, 0, 0⟩
  | .encrypt       => ⟨0x60, 0xFF, 16, 16⟩
  | .decrypt       => ⟨0x61, 0xFF, 16, 16⟩

/-- The rows in the order of R76. -/
def opcodeMap : List Op :=
  [.nop, .status, .clear, .xtime, .gfmul, .subbyte, .invsubbyte, .expandkey, .rdrk, .rotword, .subword,
   .ldstate, .rdstate, .subbytes, .invsubbytes, .shiftrows, .invshiftrows, .mixcolumns, .invmixcolumns,
   .addroundkey, .encrypt, .decrypt]

/-- The row an opcode byte selects, if any: `(op & mask) = match` (R76). -/
def selectOp (op : Byte) : Option Op :=
  opcodeMap.find? fun o => op &&& o.row.mask == o.row.opMatch

/-- R78: opcode bytes 0x5B to 0x5F match ADDROUNDKEY's row and name round keys that do not exist. -/
def roundOutOfRange (o : Op) (op : Byte) : Bool := o == .addroundkey && 10#4 < opcodeRound op

/-- The status of a payload whose length is not the format's (R75). -/
def Op.lengthStatus : Op → Status
  | .expandkey => .invalidKeyLength
  | .encrypt | .decrypt | .ldstate => .invalidBlockLength
  | .nop | .status | .clear | .xtime | .gfmul | .subbyte | .invsubbyte => .invalidOperandLength
  | .rdrk | .rotword | .subword | .rdstate | .subbytes | .invsubbytes => .invalidOperandLength
  | .shiftrows | .invshiftrows | .mixcolumns | .invmixcolumns | .addroundkey => .invalidOperandLength

/-- The command of a row, its operands formed from the opcode byte and the payload (R77). -/
def formCommand (o : Op) (op : Byte) (p : List Byte) : Instr :=
  match o with
  | .nop => .nop
  | .status => .status
  | .clear => .clear
  | .xtime => .xtime (payloadByte p 0)
  | .gfmul => .gfmul (payloadByte p 0) (payloadByte p 1)
  | .subbyte => .subbyte (payloadByte p 0)
  | .invsubbyte => .invsubbyte (payloadByte p 0)
  | .expandkey => .expandkey (payloadBlock p)
  | .rdrk => .rdrk (payloadByte p 0)
  | .rotword => .rotword (payloadWord p)
  | .subword => .subword (payloadWord p)
  | .ldstate => .ldstate (payloadBlock p)
  | .rdstate => .rdstate
  | .subbytes => .subbytes
  | .invsubbytes => .invsubbytes
  | .shiftrows => .shiftrows
  | .invshiftrows => .invshiftrows
  | .mixcolumns => .mixcolumns
  | .invmixcolumns => .invmixcolumns
  | .addroundkey => .addroundkey (opcodeRound op)
  | .encrypt => .encrypt (payloadBlock p)
  | .decrypt => .decrypt (payloadBlock p)

/-- The decoder of R81: an empty frame or an illegal opcode first, then the payload's length. -/
def decode : Frame → Except Status Instr
  | [] => .error .illegalOpcode
  | op :: p =>
    match selectOp op with
    | none => .error .illegalOpcode
    | some o =>
      if roundOutOfRange o op then .error .illegalOpcode
      else if p.length ≠ o.row.payload then .error o.lengthStatus
      else .ok (formCommand o op p)

/-! ### The encoder -/

/-- The row of a command. -/
def Instr.op : Instr → Op
  | .nop => .nop
  | .status => .status
  | .clear => .clear
  | .xtime _ => .xtime
  | .gfmul _ _ => .gfmul
  | .subbyte _ => .subbyte
  | .invsubbyte _ => .invsubbyte
  | .expandkey _ => .expandkey
  | .rdrk _ => .rdrk
  | .rotword _ => .rotword
  | .subword _ => .subword
  | .ldstate _ => .ldstate
  | .rdstate => .rdstate
  | .subbytes => .subbytes
  | .invsubbytes => .invsubbytes
  | .shiftrows => .shiftrows
  | .invshiftrows => .invshiftrows
  | .mixcolumns => .mixcolumns
  | .invmixcolumns => .invmixcolumns
  | .addroundkey _ => .addroundkey
  | .encrypt _ => .encrypt
  | .decrypt _ => .decrypt

/-- The opcode byte of a command: its row's match, with ADDROUNDKEY's round number in `op[3:0]`. -/
def Instr.opcodeByte (i : Instr) : Byte :=
  match i with
  | .addroundkey k => i.op.row.opMatch ||| k.setWidth 8
  | _ => i.op.row.opMatch

/-- The payload of a command, the reverse of R77. -/
def Instr.payload : Instr → List Byte
  | .xtime a | .subbyte a | .invsubbyte a | .rdrk a => [a]
  | .gfmul a b => [a, b]
  | .rotword w | .subword w => wordBytes w
  | .expandkey b | .ldstate b | .encrypt b | .decrypt b => blockBytes b
  | .nop | .status | .clear | .rdstate | .subbytes | .invsubbytes => []
  | .shiftrows | .invshiftrows | .mixcolumns | .invmixcolumns | .addroundkey _ => []

/-- The command frame of a command (R71). -/
def encode (i : Instr) : Frame := i.opcodeByte :: i.payload

/-! ### Words numbered as spec/opcode_table.json numbers them -/

/-- The frame whose bits are `w`: frame byte `j` is bits `8j+7..8j`. It is as long as its opcode's
format asks, or as `nbits` where that is longer; bits at and above `nbits` are 0. -/
def tableFrame (nbits w : Nat) : Frame :=
  let bits := w % 2 ^ nbits
  let format := match selectOp (BitVec.ofNat 8 bits) with
    | some o => o.row.payload + 1
    | none => 1
  (List.range (max format ((nbits + 7) / 8))).map fun j => BitVec.ofNat 8 (bits / 256 ^ j)

/-- The command the decoder reads from the frame of a table word, if it accepts it. -/
def decodeTableWord (nbits w : Nat) : Option Instr := (decode (tableFrame nbits w)).toOption

end Sys2Proof
end

