-- ==== Sys2Proof/Config.lean ====
section
/-! DEFINITION. What the spec leaves to the implementation. The only open parameter is `Transport`
(spec/92_eei_decisions.md D2, spec/00_scope.md R8); the one thing of it that a step of this model
has to name is what becomes of the frames that wait while reset is asserted. -/

namespace Sys2Proof

/-- Whether the transport still delivers the waiting command frame at position `i` (0 is the oldest) once
reset has been asserted, as a function of a fresh index and of the frames that were waiting: "Frames not
yet taken when reset is asserted are the transport's business" (spec/70_reset_and_hazards.md R250;
spec/93_implementation_defined.md U10, U12). A free value, DESIGN CHOICE (log entry 2): nothing is known
of it. It says which frames survive and no more, since a transport delivers frames "whole, with its
exact length, uncorrupted, and in the order sent" (spec/30_encoding.md R84). -/
opaque Config.survivesReset (draw : Nat) (waiting : List Frame) (i : Nat) : Bool

end Sys2Proof
end

