-- ==== Sys2Proof/Machine/State.lean ====
section
/-! DEFINITION. The state of the machine, the reasons a step may stop, and the state after reset. -/

namespace Sys2Proof.Machine

/-- The reasons the machine could stop with. There is none: "the model's own fault or refusal outcomes
are needed nowhere in this machine, because the decoder is total and every command is total on every
state" (spec/60_exceptions.md R235). An error status is a response, not a fault. Safe and unsafe do
not arise: nothing raises it. -/
inductive Fault
deriving DecidableEq, Repr

/-- The reasons an instruction could be refused for. -/
inductive Refusal where
  /-- Raised by an arm of `exec` whose instruction has no meaning yet; no arm raises it. Safe: the model
  stops where the hardware goes on. -/
  | notModelled (mnemonic : String)
deriving DecidableEq, Repr

/-- The 23 positions of the orchestrator's sequencer SEQ: `IDLE`, `ENC(0..10)`, `DEC(10..0)`
(spec/10_state.md R25). -/
inductive Sequencer where
  | idle
  | enc (p : Fin 11)
  | dec (p : Fin 11)
deriving DecidableEq, Repr

/-- The machine: the core's architectural state (spec/10_state.md, section 1) and its three interfaces
(spec/30_encoding.md R84). KEY_VALID and STATE_VALID are views of `W` and `S`, "absent exactly when the
flag is 0; the flags are then not separate state" (R24); Machine/Flags.lean defines them. -/
structure State where
  /-- S, 16 registers of 8 bits; `none` is "no value" (R20, R24). -/
  S : Option Block
  /-- W, 44 registers of 32 bits; `none` is "no value" (R22, R24). -/
  W : Option ExpandedKey
  /-- SEQ, the orchestrator's position (R25). -/
  SEQ : Sequencer
  /-- The command channel: frames sent and not yet taken, oldest first (R84, R85). -/
  commands : List Frame
  /-- The response channel: frames emitted and not yet taken by the host, oldest first (R84, R85). -/
  responses : List Frame
  /-- The reset input, true while asserted (R84, R250). -/
  resetLine : Bool
  /-- The model's own: how many free values of the transport have been drawn (log entry 2). -/
  transportDraws : Nat
deriving DecidableEq, Repr

/-- The state after reset (spec/10_state.md R30): no key, no state, SEQ at IDLE. The channels are empty
and the reset input is released (log entry 3); the draw counter starts at 0 (log entry 2). -/
def State.reset : State where
  S := none
  W := none
  SEQ := .idle
  commands := []
  responses := []
  resetLine := false
  transportDraws := 0

/-- What executing a command ends in. -/
abbrev Result := Host.Outcome State Fault Refusal

end Sys2Proof.Machine
end

