-- ==== Sys2Proof/Machine/Flags.lean ====
section
/-! DEFINITION. The two flags and the status register, all views of S and W (spec/10_state.md R24, R26 to
R28), and the numbers of the status codes (spec/60_exceptions.md R220). -/

namespace Sys2Proof.Machine

/-- KEY_VALID: 1 exactly when W holds an expanded key (R26). -/
def State.keyValid (s : State) : Bool := s.W.isSome

/-- STATE_VALID: 1 exactly when S holds a state (R27). -/
def State.stateValid (s : State) : Bool := s.S.isSome

/-- The STATUS register: bit 0 KEY_VALID, bit 1 STATE_VALID, bits 7:2 zero (R28). -/
def State.statusByte (s : State) : Byte :=
  0#6 ++ BitVec.ofBool s.stateValid ++ BitVec.ofBool s.keyValid

/-- The status byte of a response (R220). -/
def statusCode : Status → Byte
  | .ok => 0x00
  | .invalidKeyLength => 0x01
  | .invalidBlockLength => 0x02
  | .invalidOperandLength => 0x03
  | .noKey => 0x04
  | .noState => 0x05
  | .illegalOpcode => 0x06
  | .invalidRoundIndex => 0x07

end Sys2Proof.Machine
end

