-- ==== Sys2Proof/Machine/Ops.lean ====
section
/-! DEFINITION. The operations the commands share: answering, raising a status, the KEY_VALID and
STATE_VALID checks, replacing S, taking a frame, and reset.

An error status is this machine's exception (spec/60_exceptions.md R220, R222, R227, R228): it saves
nothing, changes no mode and goes nowhere, so raising it is one response and there is no return. -/

namespace Sys2Proof.Machine

/-- Emit one response frame: status byte, then result bytes (spec/30_encoding.md R73, R85). -/
def State.emit (s : State) (status : Status) (result : List Byte) : State :=
  { s with responses := s.responses ++ [statusCode status :: result] }

/-- `respond(bytes)`: end the step with status OK and the result bytes (spec/00_scope.md R12). -/
def respond (result : List Byte) (s : State) : Result := .next (s.emit .ok result)

/-- `raise <Status>`: end the step with the one-byte response of the status and no effect
(spec/00_scope.md R12; spec/60_exceptions.md R222). -/
def raise (status : Status) (s : State) : Result := .next (s.emit status [])

/-- `if KEY_VALID = 0 then raise NO_KEY`, and otherwise go on with W. -/
def withKey (s : State) (k : ExpandedKey → Result) : Result :=
  match s.W with
  | none => raise .noKey s
  | some w => k w

/-- `if STATE_VALID = 0 then raise NO_STATE`, and otherwise go on with S. -/
def withState (s : State) (k : Block → Result) : Result :=
  match s.S with
  | none => raise .noState s
  | some b => k b

/-- `S <- f(S)`, every new byte from the old S, then `respond()`; NO_STATE where S holds no value. -/
def transformState (f : Block → Block) (s : State) : Result :=
  withState s fun b => respond [] { s with S := some (f b) }

/-- Take the oldest waiting command frame, if there is one (spec/30_encoding.md R70, R85). -/
def State.takeFrame (s : State) : Option (Frame × State) :=
  match s.commands with
  | [] => none
  | f :: rest => some (f, { s with commands := rest })

/-- The frames of a list that are kept, in order; `i` is the position of the list's head. -/
def keepFrames (keep : Nat → Bool) : Nat → List Frame → List Frame
  | _, [] => []
  | i, f :: rest => if keep i then f :: keepFrames keep (i + 1) rest else keepFrames keep (i + 1) rest

/-- The waiting frames that survive a reset: some of those that wait, unaltered and in order
(spec/30_encoding.md R84). Which ones is the transport's, a free value (log entry 2). -/
def State.framesAfterReset (s : State) : List Frame :=
  keepFrames (Config.survivesReset s.transportDraws s.commands) 0 s.commands

/-- Reset: W and S lose their values and SEQ is IDLE (spec/70_reset_and_hazards.md R250). Responses
already emitted are on their way to the host and stay (DEDUCED, log entry 9). -/
def State.enterReset (s : State) : State :=
  { s with
    S := none
    W := none
    SEQ := .idle
    commands := s.framesAfterReset
    transportDraws := s.transportDraws + 1 }

end Sys2Proof.Machine
end

