-- ==== Sys2Proof/Machine/Field.lean ====
section
/-! DEFINITION. The GF(2^8) multiplier and its commands XTIME and GFMUL (spec/41_field_arithmetic.md). -/

namespace Sys2Proof.Machine

/-- `xtime(a)` (R100): shift left by one, and XOR 0x1B when bit 7 of the input was set. A shift of a
byte drops the bit above it, which is the rule's mask. -/
def xtime (a : Byte) : Byte := if a.getLsbD 7 then (a <<< 1) ^^^ 0x1B#8 else a <<< 1

/-- The loop of R101, `n` iterations from accumulator `acc`. -/
def gmulLoop : Nat → Byte → Byte → Byte → Byte
  | 0, acc, _, _ => acc
  | n + 1, acc, a, b => gmulLoop n (if b.getLsbD 0 then acc ^^^ a else acc) (xtime a) (b >>> 1)

/-- `gmul(a, b)` (R101): eight iterations from accumulator 0. -/
def gmul (a b : Byte) : Byte := gmulLoop 8 0 a b

/-- XTIME (R102). -/
def execXtime (a : Byte) (s : State) : Result := respond [xtime a] s

/-- GFMUL (R103). -/
def execGfmul (a b : Byte) (s : State) : Result := respond [gmul a b] s

end Sys2Proof.Machine
end

