-- ==== Sys2Proof/Machine/RoundTransform.lean ====
section
/-! DEFINITION. The round transform: the seven functions on sixteen bytes and the nine commands that
apply them to S (spec/44_round_transform.md). Every output byte is a function of the input array. -/

namespace Sys2Proof.Machine

/-! ### The functions -/

/-- `addRoundKey(s, rk)` (R150). -/
def addRoundKey (s : Block) (rk : RoundKey) : Block :=
  Vector.ofFn fun i => s[i] ^^^ byteOf rk[colOf i] (rowOf i)

/-- `subBytes(s)` (R151). -/
def subBytes (s : Block) : Block := Vector.ofFn fun i => sbox s[i]

/-- `invSubBytes(s)` (R152). -/
def invSubBytes (s : Block) : Block := Vector.ofFn fun i => isbox s[i]

/-- `shiftRows(s)` (R153): row `r` of column `c` comes from column `(c + r) mod 4`. -/
def shiftRows (s : Block) : Block :=
  Vector.ofFn fun i => s[gridIndex (rowOf i) (colOf i + rowOf i)]

/-- `invShiftRows(s)` (R154): row `r` of column `c` comes from column `(c − r) mod 4`. -/
def invShiftRows (s : Block) : Block :=
  Vector.ofFn fun i => s[gridIndex (rowOf i) (colOf i - rowOf i)]

/-- The product of every column with the circulant matrix whose entry in row `r`, column `j` is
`m[(j − r) mod 4]` (R155, R156). -/
def mixWith (m : Vector Byte 4) (s : Block) : Block :=
  Vector.ofFn fun i =>
    let r := rowOf i
    let c := colOf i
    gmul m[0 - r] s[gridIndex 0 c] ^^^ gmul m[1 - r] s[gridIndex 1 c] ^^^
      gmul m[2 - r] s[gridIndex 2 c] ^^^ gmul m[3 - r] s[gridIndex 3 c]

/-- `mixColumns(s)` (R155): first row 2, 3, 1, 1. -/
def mixColumns (s : Block) : Block := mixWith #v[2, 3, 1, 1] s

/-- `invMixColumns(s)` (R156): first row 14, 11, 13, 9. -/
def invMixColumns (s : Block) : Block := mixWith #v[14, 11, 13, 9] s

/-! ### The commands -/

/-- LDSTATE (R140): `S[i] <- P[i]`. -/
def execLdstate (block : Block) (s : State) : Result := respond [] { s with S := some block }

/-- RDSTATE (R141). -/
def execRdstate (s : State) : Result := withState s fun b => respond (blockBytes b) s

/-- SUBBYTES (R142). -/
def execSubbytes (s : State) : Result := transformState subBytes s

/-- INVSUBBYTES (R143). -/
def execInvsubbytes (s : State) : Result := transformState invSubBytes s

/-- SHIFTROWS (R144). -/
def execShiftrows (s : State) : Result := transformState shiftRows s

/-- INVSHIFTROWS (R145). -/
def execInvshiftrows (s : State) : Result := transformState invShiftRows s

/-- MIXCOLUMNS (R146). -/
def execMixcolumns (s : State) : Result := transformState mixColumns s

/-- INVMIXCOLUMNS (R147). -/
def execInvmixcolumns (s : State) : Result := transformState invMixColumns s

/-- ADDROUNDKEY k (R148): the key check, then the state check. A `k` above 10 is no ADDROUNDKEY but an
illegal opcode (spec/30_encoding.md R78) and is answered as one. -/
def execAddroundkey (k : BitVec 4) (s : State) : Result :=
  match roundNumber k.toNat with
  | none => raise .illegalOpcode s
  | some k => withKey s fun w => transformState (fun b => addRoundKey b (roundKey w k)) s

end Sys2Proof.Machine
end

