-- ==== Sys2Proof/Machine/BlockCipher.lean ====
section
/-! DEFINITION. The cipher orchestrator: the sequencer's positions and the commands ENCRYPT and DECRYPT
(spec/45_block_cipher.md). A command runs all its positions in one step (spec/00_scope.md R5). -/

namespace Sys2Proof.Machine

/-- What a position performs on S under the expanded key `w` (R172, R175). -/
def performPosition (w : ExpandedKey) (pos : Sequencer) (s : Block) : Block :=
  match pos with
  | .idle => s
  | .enc p =>
    if p = 0 then addRoundKey s (roundKey w p)
    else if p = 10 then addRoundKey (shiftRows (subBytes s)) (roundKey w p)
    else addRoundKey (mixColumns (shiftRows (subBytes s))) (roundKey w p)
  | .dec p =>
    if p = 0 then addRoundKey s (roundKey w p)
    else if p = 10 then invSubBytes (invShiftRows (addRoundKey s (roundKey w p)))
    else invSubBytes (invShiftRows (invMixColumns (addRoundKey s (roundKey w p))))

/-- The position after a position (R172, R175: the `next` columns). -/
def nextPosition : Sequencer → Sequencer
  | .idle => .idle
  | .enc p => if p = 10 then .idle else .enc (p + 1)
  | .dec p => if p = 0 then .idle else .dec (p - 1)

/-- `n` positions: SEQ and S after them. -/
def runPositions (w : ExpandedKey) : Nat → Sequencer × Block → Sequencer × Block
  | 0, x => x
  | n + 1, x => runPositions w n (nextPosition x.1, performPosition w x.1 x.2)

/-- SEQ and S after the eleven positions of ENCRYPT, from the block loaded into S (R171). -/
def runEncrypt (w : ExpandedKey) (block : Block) : Sequencer × Block :=
  runPositions w 11 (.enc 0, block)

/-- SEQ and S after the eleven positions of DECRYPT (R174). -/
def runDecrypt (w : ExpandedKey) (block : Block) : Sequencer × Block :=
  runPositions w 11 (.dec 10, block)

/-- The end of a block command: SEQ as the run left it, S without value, S's last bytes as the result. -/
def finishBlock (s : State) (run : Sequencer × Block) : Result :=
  respond (blockBytes run.2) { s with S := none, SEQ := run.1 }

/-- ENCRYPT (R171). -/
def execEncrypt (block : Block) (s : State) : Result :=
  withKey s fun w => finishBlock s (runEncrypt w block)

/-- DECRYPT (R174). -/
def execDecrypt (block : Block) (s : State) : Result :=
  withKey s fun w => finishBlock s (runDecrypt w block)

end Sys2Proof.Machine
end

