-- ==== Sys2Proof/Machine/KeySchedule.lean ====
section
/-! DEFINITION. The AES-128 key scheduler and its commands EXPANDKEY, RDRK, ROTWORD and SUBWORD
(spec/43_key_schedule.md). -/

namespace Sys2Proof.Machine

/-- `rotWord(w)` (R120): rotate left by one byte. -/
def rotWord (w : Word) : Word := packWord (byteOf w 1) (byteOf w 2) (byteOf w 3) (byteOf w 0)

/-- `subWord(w)` (R121): substitute each of the four bytes in place. -/
def subWord (w : Word) : Word :=
  packWord (sbox (byteOf w 0)) (sbox (byteOf w 1)) (sbox (byteOf w 2)) (sbox (byteOf w 3))

/-- Words 0 to 3: the key packed big-endian (R123, first loop). -/
def keyWords (key : Block) : Vector Word 4 :=
  Vector.ofFn fun i : Fin 4 =>
    packWord key[gridIndex 0 i] key[gridIndex 1 i] key[gridIndex 2 i] key[gridIndex 3 i]

/-- Word `i = n + 4` from the words below it (R123, body of the second loop): rotate, substitute, then
XOR the round constant where `i mod 4 = 0`; then XOR word `i - 4`. -/
def nextWord (n : Nat) (hn : n < 40) (words : Vector Word (n + 4)) : Word :=
  let temp := words[n + 3]
  let temp := if (n + 4) % 4 = 0 then subWord (rotWord temp) ^^^ rcon ⟨(n + 4) / 4, by omega⟩ else temp
  words[n] ^^^ temp

/-- The words 0 to `n + 3`, built in ascending order (R123). -/
def expandWords (key : Block) : (n : Nat) → n ≤ 40 → Vector Word (n + 4)
  | 0, _ => keyWords key
  | n + 1, h =>
    let words := expandWords key n (by omega)
    words.push (nextWord n (by omega) words)

/-- `expandKey(key)` (R123): words 0 to 43. -/
def expandKey (key : Block) : ExpandedKey := expandWords key 40 (by omega)

/-- EXPANDKEY (R122): all 44 words of W in one step; S is untouched. -/
def execExpandkey (key : Block) (s : State) : Result := respond [] { s with W := some (expandKey key) }

/-- RDRK (R124): the index check, then the key check, then round key `k` as sixteen bytes. -/
def execRdrk (k : Byte) (s : State) : Result :=
  match roundNumber k.toNat with
  | none => raise .invalidRoundIndex s
  | some k => withKey s fun w => respond (blockBytes (roundKeyBytes (roundKey w k))) s

/-- ROTWORD (R125). -/
def execRotword (w : Word) (s : State) : Result := respond (wordBytes (rotWord w)) s

/-- SUBWORD (R126). -/
def execSubword (w : Word) (s : State) : Result := respond (wordBytes (subWord w)) s

end Sys2Proof.Machine
end

