-- ==== Sys2Proof/Machine/Substitution.lean ====
section
/-! DEFINITION. The substitution engine's commands SUBBYTE and INVSUBBYTE (spec/42_sbox.md). -/

namespace Sys2Proof.Machine

/-- SUBBYTE (R110). -/
def execSubbyte (a : Byte) (s : State) : Result := respond [sbox a] s

/-- INVSUBBYTE (R111). -/
def execInvsubbyte (a : Byte) (s : State) : Result := respond [isbox a] s

end Sys2Proof.Machine
end

