-- ==== Sys2Proof/Machine/System.lean ====
section
/-! DEFINITION. The system commands NOP, STATUS and CLEAR (spec/46_system.md). -/

namespace Sys2Proof.Machine

/-- NOP (R190). -/
def execNop (s : State) : Result := respond [] s

/-- STATUS (R191): the status register as one result byte. -/
def execStatus (s : State) : Result := respond [s.statusByte] s

/-- CLEAR (R192): W and S lose their values, so both flags are 0. -/
def execClear (s : State) : Result := respond [] { s with W := none, S := none }

end Sys2Proof.Machine
end

