-- ==== Sys2Proof/Machine/Dispatch.lean ====
section
/-! DEFINITION. The dispatch of each command to its meaning. -/

namespace Sys2Proof.Machine

def exec (i : Instr) (s : State) : Host.Outcome State Fault Refusal :=
  match i with
  | .nop => Sys2Proof.Machine.execNop s
  | .status => Sys2Proof.Machine.execStatus s
  | .clear => Sys2Proof.Machine.execClear s
  | .xtime a => Sys2Proof.Machine.execXtime a s
  | .gfmul a b => Sys2Proof.Machine.execGfmul a b s
  | .subbyte a => Sys2Proof.Machine.execSubbyte a s
  | .invsubbyte a => Sys2Proof.Machine.execInvsubbyte a s
  | .expandkey key => Sys2Proof.Machine.execExpandkey key s
  | .rdrk k => Sys2Proof.Machine.execRdrk k s
  | .rotword w => Sys2Proof.Machine.execRotword w s
  | .subword w => Sys2Proof.Machine.execSubword w s
  | .ldstate block => Sys2Proof.Machine.execLdstate block s
  | .rdstate => Sys2Proof.Machine.execRdstate s
  | .subbytes => Sys2Proof.Machine.execSubbytes s
  | .invsubbytes => Sys2Proof.Machine.execInvsubbytes s
  | .shiftrows => Sys2Proof.Machine.execShiftrows s
  | .invshiftrows => Sys2Proof.Machine.execInvshiftrows s
  | .mixcolumns => Sys2Proof.Machine.execMixcolumns s
  | .invmixcolumns => Sys2Proof.Machine.execInvmixcolumns s
  | .addroundkey k => Sys2Proof.Machine.execAddroundkey k s
  | .encrypt block => Sys2Proof.Machine.execEncrypt block s
  | .decrypt block => Sys2Proof.Machine.execDecrypt block s

end Sys2Proof.Machine
end

