-- ==== Sys2Proof/Machine/Step.lean ====
section
/-! DEFINITION. One step of the core: take one whole command frame, decode it, run it, emit one response
frame (spec/00_scope.md R5; spec/20_memory.md R56). -/

namespace Sys2Proof.Machine

/-- While reset is asserted the core takes no command and sends no response (R250). Otherwise it takes
the oldest waiting frame; a frame the decoder rejects is answered with that status and has no effect
(R81). With no frame waiting it stays as it is (R237). -/
def step (s : State) : Host.Outcome State Fault Refusal :=
  if s.resetLine then .next s.enterReset
  else
    match s.takeFrame with
    | none => .next s
    | some (f, s') =>
      match decode f with
      | .error e => raise e s'
      | .ok i => exec i s'

/-- `s` with the frame of a table word as the next frame `step` takes, and reset released. -/
def State.withFetchWord (s : State) (nbits w : Nat) : State :=
  { s with commands := tableFrame nbits w :: s.commands, resetLine := false }

end Sys2Proof.Machine
end

