-- ==== Sys2Proof/Machine/HostMoves.lean ====
section
/-! DEFINITION. The host's table of moves (spec/60_exceptions.md R237): what the outside can do to the
core's three interfaces (spec/30_encoding.md R84). The host cannot touch S, W or SEQ in any other way
(spec/00_scope.md R6). -/

namespace Sys2Proof.Machine

/-- Send one whole command frame; if the host sends ahead, frames wait in order (R85). -/
def State.sendFrame (f : Frame) (s : State) : State := { s with commands := s.commands ++ [f] }

/-- Receive the oldest response frame; each response is delivered once (R84). -/
def State.takeResponse (s : State) : Option (Frame × State) :=
  match s.responses with
  | [] => none
  | r :: rest => some (r, { s with responses := rest })

/-- Assert the reset input (spec/70_reset_and_hazards.md R250). -/
def State.assertReset (s : State) : State := { s.enterReset with resetLine := true }

/-- Assert the reset input while a command is between its frame's being taken and its response: the
command "is abandoned: it has no effect that survives (reset overwrites everything it could have
written) and it gets no response" (R250). Its frame is gone, and the frames behind it are the ones that
wait. With reset asserted already, or with no frame to take, no command can be cut short. -/
def State.cutByReset (s : State) : State :=
  if s.resetLine then s.assertReset
  else
    match s.takeFrame with
    | none => s.assertReset
    | some (_, s') => s'.assertReset

/-- Release the reset input: "When it is released the architectural state is the reset state" (R250). -/
def State.releaseReset (s : State) : State := { s.enterReset with resetLine := false }

/-- One command and its response: send the frame, let the core take a step, receive the response. It is
the response to this frame where no earlier frame waits and no earlier response is pending. Where no
response comes (reset is asserted and none is pending) the spec is silent; the state is the one the core
is left in, after the send and the step (DESIGN CHOICE, log entry 5). -/
def transact (f : Frame) (s : State) : Option Frame × State :=
  match step (s.sendFrame f) with
  | .next t =>
    match t.takeResponse with
    | none => (none, t)
    | some (r, u) => (some r, u)
  | .fault _ => (none, s.sendFrame f)
  | .refused _ => (none, s.sendFrame f)

end Sys2Proof.Machine
end

