-- ==== Sys2Proof/Machine/HostWrapper.lean ====
section
/-! DEFINITION. The host wrapper (spec/47_host_wrapper.md): PKCS#7 padding and ECB as host programs that
drive the core through its commands. It is software outside the hardware (R200; spec/00_scope.md R4):
no definition of the core uses it. -/

namespace Sys2Proof.Machine

/-- The failures of the host layer (R205). -/
inductive HostFailure where
  | invalidKeyLength
  | invalidCiphertextLength
  | paddingError
  /-- The model's own: no response came, or one that is not of the form the host program expects (DESIGN CHOICE, log entry
  5). -/
  | unexpectedResponse
deriving DecidableEq, Repr

/-- `pad(data)` (R201). -/
def pad (data : List Byte) : List Byte :=
  let n := 16 - data.length % 16
  data ++ List.replicate n (BitVec.ofNat 8 n)

/-- `unpad(data)` (R202). -/
def unpad (data : List Byte) : Except HostFailure (List Byte) :=
  if data.length = 0 then .error .paddingError
  else if data.length % 16 ≠ 0 then .error .paddingError
  else
    let last := data.getD (data.length - 1) 0
    let n := last.toNat
    if n < 1 ∨ 16 < n then .error .paddingError
    else if (data.drop (data.length - n)).all (· == last) then .ok (data.take (data.length - n))
    else .error .paddingError

/-- The 16-byte blocks of a message, in order: `m[16j .. 16j+16)`. -/
def blocksOf (m : List Byte) : List (List Byte) :=
  (List.range (m.length / 16)).map fun j => (m.drop (16 * j)).take 16

/-- The result bytes of a response of the form the host program expects: status OK and exactly `n` result
bytes, `n` being the number the command's format gives (spec/30_encoding.md R74). That an OK response of
another length is not the expected one is the model's choice: the spec writes only "expect OK c"
(DESIGN CHOICE, log entry 5). -/
def okResult (n : Nat) : Frame → Option (List Byte)
  | [] => none
  | status :: result => if status = statusCode .ok ∧ result.length = n then some result else none

/-- Send EXPANDKEY and expect OK. The core's answer INVALID_KEY_LENGTH is the failure
`InvalidKeyLength` (R203). Where no response comes, or one of another form, the failure is the model's
own and the state is as the core was left, the frame sent (DESIGN CHOICE, log entry 5). Where earlier
responses are pending, the oldest of them is taken for the answer (DESIGN CHOICE, log entry 16). -/
def loadKey (key : List Byte) (s : State) : Except HostFailure Unit × State :=
  match transact (Op.expandkey.row.opMatch :: key) s with
  | (none, t) => (.error .unexpectedResponse, t)
  | (some r, t) =>
    if r = [statusCode .invalidKeyLength] then (.error .invalidKeyLength, t)
    else if (okResult Op.expandkey.row.result r).isSome then (.ok (), t)
    else (.error .unexpectedResponse, t)

/-- Send one block command per block, in order, and concatenate the results (R203, R204, R206). An
answer other than OK fails the whole operation with no bytes (R205). Where no response comes, or one of
another form, such as OK with a number of bytes that the block command does not return, the failure is
the model's own and the state is as the core was left, the frame sent (DESIGN CHOICE, log entry 5). Where
earlier responses are pending, the oldest of them is taken for the answer (DESIGN CHOICE, log entry
16). -/
def sendBlocks (o : Op) : List (List Byte) → State → Except HostFailure (List Byte) × State
  | [], s => (.ok [], s)
  | b :: bs, s =>
    match transact (o.row.opMatch :: b) s with
    | (none, t) => (.error .unexpectedResponse, t)
    | (some r, t) =>
      match okResult o.row.result r with
      | none => (.error .unexpectedResponse, t)
      | some out =>
        match sendBlocks o bs t with
        | (.ok rest, u) => (.ok (out ++ rest), u)
        | (.error e, u) => (.error e, u)

/-- `ENCRYPT_ECB(plaintext, key)` (R203), with the core's state before and after. -/
def encryptEcb (plaintext key : List Byte) (s : State) : Except HostFailure (List Byte) × State :=
  if key.length ≠ 16 then (.error .invalidKeyLength, s)
  else
    match loadKey key s with
    | (.error e, t) => (.error e, t)
    | (.ok _, t) => sendBlocks .encrypt (blocksOf (pad plaintext)) t

/-- `DECRYPT_ECB(ciphertext, key)` (R204): the ciphertext's length is checked before the key's. -/
def decryptEcb (ciphertext key : List Byte) (s : State) : Except HostFailure (List Byte) × State :=
  if ciphertext.length = 0 ∨ ciphertext.length % 16 ≠ 0 then (.error .invalidCiphertextLength, s)
  else if key.length ≠ 16 then (.error .invalidKeyLength, s)
  else
    match loadKey key s with
    | (.error e, t) => (.error e, t)
    | (.ok _, t) =>
      match sendBlocks .decrypt (blocksOf ciphertext) t with
      | (.error e, u) => (.error e, u)
      | (.ok m, u) => (unpad m, u)

end Sys2Proof.Machine
end

