-- ==== Sys2Proof/Machine/Pseudo.lean ====
section
/-! DEFINITION. The pseudo-instructions (spec/30_encoding.md R83): fixed sequences of commands with no
encoding of their own, and the execution of a sequence of commands. -/

namespace Sys2Proof.Machine

/-- `ROUND k`. -/
def roundSteps (k : BitVec 4) : List Instr := [.subbytes, .shiftrows, .mixcolumns, .addroundkey k]

/-- `FINALROUND`. -/
def finalRoundSteps : List Instr := [.subbytes, .shiftrows, .addroundkey 10]

/-- `INVFIRST`. -/
def invFirstSteps : List Instr := [.addroundkey 10, .invshiftrows, .invsubbytes]

/-- `INVROUND k`. -/
def invRoundSteps (k : BitVec 4) : List Instr :=
  [.addroundkey k, .invmixcolumns, .invshiftrows, .invsubbytes]

/-- `ENCSTEPS b`: LDSTATE b; ADDROUNDKEY 0; ROUND 1 to ROUND 9; FINALROUND; RDSTATE. -/
def encSteps (b : Block) : List Instr :=
  [.ldstate b, .addroundkey 0] ++
    ([1, 2, 3, 4, 5, 6, 7, 8, 9] : List (BitVec 4)).flatMap roundSteps ++ finalRoundSteps ++ [.rdstate]

/-- `DECSTEPS b`: LDSTATE b; INVFIRST; INVROUND 9 to INVROUND 1; ADDROUNDKEY 0; RDSTATE. -/
def decSteps (b : Block) : List Instr :=
  .ldstate b :: invFirstSteps ++
    ([9, 8, 7, 6, 5, 4, 3, 2, 1] : List (BitVec 4)).flatMap invRoundSteps ++ [.addroundkey 0, .rdstate]

/-- Execute commands one after another, each from the state the one before it left
(spec/20_memory.md R56). -/
def execAll : List Instr → State → Result
  | [], s => .next s
  | i :: is, s =>
    match exec i s with
    | .next t => execAll is t
    | .fault r => .fault r
    | .refused r => .refused r

end Sys2Proof.Machine
end

