-- ==== Sys2Proof/Safety.lean ====
section
/-! DEFINITION. What the claims call a good state, a legal response and a safe step. -/

namespace Sys2Proof.Machine

/-- The recurrence of the expanded key for the words 4 to 43 (spec/10_state.md R23); word `n + 4` is
word `i` of the rule. -/
def scheduleHolds (w : ExpandedKey) : Prop :=
  ∀ n : Fin 40, w[n.val + 4] = w[n.val] ^^^
    (if (n.val + 4) % 4 = 0 then
      subWord (rotWord w[n.val + 3]) ^^^ rcon ⟨(n.val + 4) / 4, by omega⟩
    else w[n.val + 3])

/-- A good state between steps: SEQ is IDLE (R25), and W, where it holds a value, is an expanded key
(R23). -/
def State.Inv (s : State) : Prop := s.SEQ = .idle ∧ ∀ w, s.W = some w → scheduleHolds w

/-- A frame the core may send (spec/30_encoding.md R73, R74; spec/60_exceptions.md R220): a non-OK
status alone, or OK and 0, 1, 4 or 16 result bytes. -/
def legalResponse (r : Frame) : Prop :=
  (∃ e, e ≠ Status.ok ∧ r = [statusCode e]) ∨
    ∃ result, r = statusCode .ok :: result ∧ result.length ∈ [0, 1, 4, 16]

/-- `s` with `f` as the next command frame and reset released: the next step takes `f`. -/
def State.offer (s : State) (f : Frame) : State :=
  { s with commands := f :: s.commands, resetLine := false }

/-- `s` with one more response frame and reset released: what taking an offered frame leaves where the
command changes nothing else. -/
def State.answered (s : State) (r : Frame) : State :=
  { s with resetLine := false, responses := s.responses ++ [r] }

/-- A step that stops with neither a fault nor a refusal (R235). -/
def safeStep (s : State) : Prop := ∃ t, step s = .next t

end Sys2Proof.Machine
end

