-- ==== Sys2Proof/Certificates/Slice0/Obligations.lean ====
section
/-! DEFINITION. The statements for the provers. `s.offer f` is `s` with the frame `f` next to be taken and
reset released; `s.answered r` is `s` with the response `r` added and nothing else changed
(Sys2Proof/Safety.lean). A record update names everything a command changes, so each equation is also
that command's frame. -/

open Sys2Proof Sys2Proof.Machine

/-! ### Reset and the system commands -/

/-- spec/10_state.md R30: after reset, and after CLEAR between steps, no key, no state, SEQ at IDLE, and
STATUS reads 0x00. -/
def Obligations.ResetAndClearHoldNothing : Prop :=
  State.reset.W = none ∧ State.reset.S = none ∧ State.reset.SEQ = .idle ∧
  State.reset.keyValid = false ∧ State.reset.stateValid = false ∧ State.reset.statusByte = 0x00 ∧
  ∀ s : State, s.SEQ = .idle → ∃ t, exec .clear s = .next t ∧
    t.W = none ∧ t.S = none ∧ t.SEQ = .idle ∧ t.keyValid = false ∧ t.stateValid = false ∧
    t.statusByte = 0x00

/-- spec/46_system.md R190. -/
def Obligations.NopAnswersOkAndChangesNothing : Prop :=
  (∀ (s : State) (p : List Byte),
    step (s.offer (0x00 :: p)) = .next (s.answered (if p.length ≠ 0 then [0x03] else [0x00]))) ∧
  ∀ s : State, exec .nop s = .next { s with responses := s.responses ++ [[0x00]] }

/-- spec/46_system.md R191, spec/10_state.md R28: bit 0 is KEY_VALID, bit 1 STATE_VALID, the rest zero. -/
def Obligations.StatusReportsTheTwoFlags : Prop :=
  (∀ (s : State) (p : List Byte),
    step (s.offer (0x01 :: p)) =
      .next (s.answered (if p.length ≠ 0 then [0x03] else [0x00, s.statusByte]))) ∧
  (∀ s : State, exec .status s = .next { s with responses := s.responses ++ [[0x00, s.statusByte]] }) ∧
  ∀ s : State, s.statusByte.getLsbD 0 = s.W.isSome ∧ s.statusByte.getLsbD 1 = s.S.isSome ∧
    ∀ i, 2 ≤ i → s.statusByte.getLsbD i = false

/-- spec/46_system.md R192. SEQ stays as it was (log entry 17). -/
def Obligations.ClearDropsKeyAndState : Prop :=
  (∀ (s : State) (p : List Byte),
    step (s.offer (0x02 :: p)) = .next (if p.length ≠ 0 then s.answered [0x03]
      else { s with W := none, S := none }.answered [0x00])) ∧
  ∀ s : State, exec .clear s =
    .next { s with W := none, S := none, responses := s.responses ++ [[0x00]] }

/-! ### The field multiplier -/

/-- spec/41_field_arithmetic.md R102. -/
def Obligations.XtimeAnswersTheDoubledByte : Prop :=
  (∀ (s : State) (p : List Byte),
    step (s.offer (0x10 :: p)) =
      .next (s.answered (if p.length ≠ 1 then [0x03] else [0x00, xtime (p.getD 0 0)]))) ∧
  ∀ (a : Byte) (s : State),
    exec (.xtime a) s = .next { s with responses := s.responses ++ [[0x00, xtime a]] }

/-- spec/41_field_arithmetic.md R100: the closed form, on unbounded integers, masked to eight bits. -/
def Obligations.XtimeClosedForm : Prop :=
  ∀ a : Byte, (xtime a).toNat = ((a.toNat * 2) % 256) ^^^ (if 0x80 ≤ a.toNat then 0x1B else 0x00)

/-- spec/41_field_arithmetic.md R103. -/
def Obligations.GfmulAnswersTheProduct : Prop :=
  (∀ (s : State) (p : List Byte),
    step (s.offer (0x11 :: p)) =
      .next (s.answered (if p.length ≠ 2 then [0x03] else [0x00, gmul (p.getD 0 0) (p.getD 1 0)]))) ∧
  ∀ (a b : Byte) (s : State),
    exec (.gfmul a b) s = .next { s with responses := s.responses ++ [[0x00, gmul a b]] }

/-- spec/41_field_arithmetic.md R101: the product is the XOR, over the set bits `i` of `b`, of `xtime`
applied `i` times to `a`. -/
def Obligations.GmulIsXorOfDoublings : Prop :=
  ∀ a b : Byte, gmul a b =
    (List.range 8).foldl (fun acc i => if b.getLsbD i then acc ^^^ xtime^[i] a else acc) 0

/-- spec/41_field_arithmetic.md R105 (a) to (i). -/
def Obligations.GmulFieldLaws : Prop :=
  (∀ a b : Byte, gmul a 0 = 0 ∧ gmul 0 b = 0) ∧
  (∀ a b : Byte, gmul a 1 = a ∧ gmul 1 b = b) ∧
  (∀ a : Byte, gmul a 2 = xtime a) ∧
  (∀ a : Byte, gmul a 3 = xtime a ^^^ a) ∧
  (∀ a b : Byte, gmul a b = gmul b a) ∧
  (∀ a b c : Byte, gmul (gmul a b) c = gmul a (gmul b c)) ∧
  (∀ a b c : Byte, gmul a (b ^^^ c) = gmul a b ^^^ gmul a c) ∧
  (∀ a : Byte, a ≠ 0 → ∃! x, gmul a x = 1) ∧
  (gmul 0x53 0xCA = 1 ∧ gmul 0x02 0x8D = 1) ∧
  ∀ a b : Byte, gmul a b = 0 → a = 0 ∨ b = 0

/-! ### The substitution tables and RCON -/

/-- spec/42_sbox.md R110, R111. -/
def Obligations.SubbyteCommandsAnswerTableEntries : Prop :=
  (∀ (s : State) (p : List Byte),
    step (s.offer (0x20 :: p)) =
      .next (s.answered (if p.length ≠ 1 then [0x03] else [0x00, sbox (p.getD 0 0)])) ∧
    step (s.offer (0x21 :: p)) =
      .next (s.answered (if p.length ≠ 1 then [0x03] else [0x00, isbox (p.getD 0 0)]))) ∧
  ∀ (a : Byte) (s : State),
    exec (.subbyte a) s = .next { s with responses := s.responses ++ [[0x00, sbox a]] } ∧
    exec (.invsubbyte a) s = .next { s with responses := s.responses ++ [[0x00, isbox a]] }

/-- spec/20_memory.md R47. -/
def Obligations.TablesAreInversePermutations : Prop :=
  (∀ a : Byte, isbox (sbox a) = a) ∧ (∀ a : Byte, sbox (isbox a) = a) ∧
  Function.Bijective sbox ∧ Function.Bijective isbox ∧
  ∀ a : Byte, sbox a ≠ a ∧ sbox a ≠ a ^^^ 0xFF

/-- spec/20_memory.md, the cross-check after R44: SBOX is the affine map of the field inverse. The table
is data; this is an independent check of it. -/
def Obligations.SboxIsAffineOfFieldInverse : Prop :=
  sbox 0 = 0x63 ∧
  ∀ a x : Byte, gmul a x = 1 →
    sbox a = x ^^^ x.rotateLeft 1 ^^^ x.rotateLeft 2 ^^^ x.rotateLeft 3 ^^^ x.rotateLeft 4 ^^^ 0x63

/-- spec/20_memory.md R46: entry 0 is zero, entry 1 is 0x01000000, each later entry's top byte is the
doubling of the one before, and the other three bytes are zero. -/
def Obligations.RconDoublesInTheTopByte : Prop :=
  rcon 0 = 0x00000000 ∧ rcon 1 = 0x01000000 ∧
  (∀ j : Fin 9, byteOf (rcon ⟨j.val + 2, by omega⟩) 0 = xtime (byteOf (rcon ⟨j.val + 1, by omega⟩) 0)) ∧
  (∀ j : Fin 11, rcon j = packWord (byteOf (rcon j) 0) 0 0 0) ∧
  (List.ofFn fun j : Fin 10 => byteOf (rcon ⟨j.val + 1, by omega⟩) 0) =
    [0x01, 0x02, 0x04, 0x08, 0x10, 0x20, 0x40, 0x80, 0x1B, 0x36]

/-! ### The key scheduler -/

/-- spec/43_key_schedule.md R122: on success all of W is written and S is untouched; a wrong length
leaves an earlier key in place. -/
def Obligations.ExpandkeyLoadsTheExpandedKey : Prop :=
  (∀ (s : State) (p : List Byte), p.length ≠ 16 →
    step (s.offer (0x30 :: p)) = .next (s.answered [0x01])) ∧
  (∀ (s : State) (key : Block),
    step (s.offer (0x30 :: key.toList)) =
      .next ({ s with W := some (expandKey key) }.answered [0x00])) ∧
  ∀ (key : Block) (s : State), exec (.expandkey key) s =
    .next { s with W := some (expandKey key), responses := s.responses ++ [[0x00]] }

/-- spec/43_key_schedule.md R123: words 0 to 3 are the key packed big-endian; word `i` from 4 on is word
`i − 4` XOR word `i − 1`, which is rotated, substituted and XORed with RCON where `i mod 4 = 0`. -/
def Obligations.ExpandKeyFollowsTheRecurrence : Prop :=
  ∀ key : Block,
    (∀ i : Fin 4, (expandKey key)[i.val] =
      packWord key[4 * i.val] key[4 * i.val + 1] key[4 * i.val + 2] key[4 * i.val + 3]) ∧
    ∀ (i : Nat) (h : 4 ≤ i ∧ i < 44), (expandKey key)[i] = (expandKey key)[i - 4] ^^^
      (if i % 4 = 0 then subWord (rotWord (expandKey key)[i - 1]) ^^^ rcon ⟨i / 4, by omega⟩
      else (expandKey key)[i - 1])

/-- spec/43_key_schedule.md R127: round key 0 is the key; the map is injective; each round key of an
expanded key determines all of it; no key is turned away. -/
def Obligations.RoundKeysDetermineEachOther : Prop :=
  (∀ key : Block, roundKeyBytes (roundKey (expandKey key) 0) = key) ∧
  (∀ key key' : Block, expandKey key = expandKey key' → key = key') ∧
  (∀ (w w' : ExpandedKey) (k : Fin 11), scheduleHolds w → scheduleHolds w' →
    roundKey w k = roundKey w' k → w = w') ∧
  ∀ (key : Block) (s : State), ∃ t, exec (.expandkey key) s = .next t ∧ t.W = some (expandKey key)

/-- spec/43_key_schedule.md R124: the length, then the index, then the key; then round key `k`, byte
`4c + r` of the result being byte `r` of `W[4k + c]`. -/
def Obligations.RdrkReadsARoundKey : Prop :=
  (∀ (s : State) (p : List Byte),
    step (s.offer (0x31 :: p)) = .next (s.answered (
      if p.length ≠ 1 then [0x03]
      else if h : (p.getD 0 0).toNat < 11 then
        match s.W with
        | none => [0x04]
        | some w => 0x00 :: (roundKeyBytes (roundKey w ⟨(p.getD 0 0).toNat, h⟩)).toList
      else [0x07]))) ∧
  (∀ (k : Fin 11) (s : State) (w : ExpandedKey), s.W = some w →
    exec (.rdrk (BitVec.ofNat 8 k.val)) s =
      .next { s with responses := s.responses ++ [0x00 :: (roundKeyBytes (roundKey w k)).toList] }) ∧
  ∀ (w : ExpandedKey) (k : Fin 11) (c r : Fin 4),
    (roundKeyBytes (roundKey w k))[4 * c.val + r.val] = byteOf w[4 * k.val + c.val] r

/-- spec/43_key_schedule.md R125, R126. -/
def Obligations.WordCommandsRotateAndSubstitute : Prop :=
  (∀ (s : State) (p : List Byte), p.length ≠ 4 →
    step (s.offer (0x32 :: p)) = .next (s.answered [0x03]) ∧
    step (s.offer (0x33 :: p)) = .next (s.answered [0x03])) ∧
  (∀ (s : State) (b0 b1 b2 b3 : Byte),
    step (s.offer [0x32, b0, b1, b2, b3]) = .next (s.answered [0x00, b1, b2, b3, b0]) ∧
    step (s.offer [0x33, b0, b1, b2, b3]) =
      .next (s.answered [0x00, sbox b0, sbox b1, sbox b2, sbox b3])) ∧
  ∀ (w : Word) (s : State),
    exec (.rotword w) s =
      .next { s with responses := s.responses ++
        [[0x00, byteOf w 1, byteOf w 2, byteOf w 3, byteOf w 0]] } ∧
    exec (.subword w) s =
      .next { s with responses := s.responses ++
        [[0x00, sbox (byteOf w 0), sbox (byteOf w 1), sbox (byteOf w 2), sbox (byteOf w 3)]] }

/-- spec/43_key_schedule.md R120, R121: the rotation is by eight bits, four of them restore the word, and
it commutes with the substitution of the four bytes. -/
def Obligations.RotWordAndSubWordOnBytes : Prop :=
  (∀ w : Word, rotWord w = (w <<< 8) ||| (w >>> 24)) ∧
  (∀ w : Word, rotWord w = packWord (byteOf w 1) (byteOf w 2) (byteOf w 3) (byteOf w 0)) ∧
  (∀ w : Word, rotWord (rotWord (rotWord (rotWord w))) = w) ∧
  (∀ (w : Word) (j : Fin 4), byteOf (subWord w) j = sbox (byteOf w j)) ∧
  ∀ w : Word, subWord (rotWord w) = rotWord (subWord w)

/-! ### The round transform -/

/-- spec/44_round_transform.md R140, R141: LDSTATE stores the block as given, RDSTATE reads it back
unchanged. -/
def Obligations.LdstateAndRdstateMoveTheBlock : Prop :=
  (∀ (s : State) (p : List Byte), p.length ≠ 16 →
    step (s.offer (0x40 :: p)) = .next (s.answered [0x02])) ∧
  (∀ (s : State) (b : Block),
    step (s.offer (0x40 :: b.toList)) = .next ({ s with S := some b }.answered [0x00])) ∧
  (∀ (s : State) (p : List Byte),
    step (s.offer (0x41 :: p)) = .next (s.answered (
      if p.length ≠ 0 then [0x03]
      else match s.S with
        | none => [0x05]
        | some b => 0x00 :: b.toList))) ∧
  (∀ (b : Block) (s : State), exec (.ldstate b) s =
    .next { s with S := some b, responses := s.responses ++ [[0x00]] }) ∧
  ∀ (b : Block) (s : State), s.S = some b →
    exec .rdstate s = .next { s with responses := s.responses ++ [0x00 :: b.toList] }

/-- spec/44_round_transform.md R142, R143, R151, R152. -/
def Obligations.SubbytesSubstitutesEveryLane : Prop :=
  (∀ (s : State) (p : List Byte),
    step (s.offer (0x42 :: p)) = .next (
      if p.length ≠ 0 then s.answered [0x03]
      else match s.S with
        | none => s.answered [0x05]
        | some b => { s with S := some (subBytes b) }.answered [0x00]) ∧
    step (s.offer (0x43 :: p)) = .next (
      if p.length ≠ 0 then s.answered [0x03]
      else match s.S with
        | none => s.answered [0x05]
        | some b => { s with S := some (invSubBytes b) }.answered [0x00])) ∧
  (∀ (s : State) (b : Block), s.S = some b →
    exec .subbytes s =
      .next { s with S := some (subBytes b), responses := s.responses ++ [[0x00]] } ∧
    exec .invsubbytes s =
      .next { s with S := some (invSubBytes b), responses := s.responses ++ [[0x00]] }) ∧
  ∀ (b : Block) (i : Fin 16), (subBytes b)[i] = sbox b[i] ∧ (invSubBytes b)[i] = isbox b[i]

/-- spec/44_round_transform.md R144, R145, R153, R154, with the rules' permutation tables. -/
def Obligations.ShiftrowsPermutesTheLanes : Prop :=
  (∀ (s : State) (p : List Byte),
    step (s.offer (0x44 :: p)) = .next (
      if p.length ≠ 0 then s.answered [0x03]
      else match s.S with
        | none => s.answered [0x05]
        | some b => { s with S := some (shiftRows b) }.answered [0x00]) ∧
    step (s.offer (0x45 :: p)) = .next (
      if p.length ≠ 0 then s.answered [0x03]
      else match s.S with
        | none => s.answered [0x05]
        | some b => { s with S := some (invShiftRows b) }.answered [0x00])) ∧
  (∀ (s : State) (b : Block), s.S = some b →
    exec .shiftrows s =
      .next { s with S := some (shiftRows b), responses := s.responses ++ [[0x00]] } ∧
    exec .invshiftrows s =
      .next { s with S := some (invShiftRows b), responses := s.responses ++ [[0x00]] }) ∧
  ∀ (b : Block) (i : Fin 16),
    (shiftRows b)[i] =
      b[(#v[0, 5, 10, 15, 4, 9, 14, 3, 8, 13, 2, 7, 12, 1, 6, 11] : Vector (Fin 16) 16)[i]] ∧
    (invShiftRows b)[i] =
      b[(#v[0, 13, 10, 7, 4, 1, 14, 11, 8, 5, 2, 15, 12, 9, 6, 3] : Vector (Fin 16) 16)[i]]

/-- spec/44_round_transform.md R146, R147, R155, R156, with the rules' rows written out. -/
def Obligations.MixcolumnsMultipliesEveryColumn : Prop :=
  (∀ (s : State) (p : List Byte),
    step (s.offer (0x46 :: p)) = .next (
      if p.length ≠ 0 then s.answered [0x03]
      else match s.S with
        | none => s.answered [0x05]
        | some b => { s with S := some (mixColumns b) }.answered [0x00]) ∧
    step (s.offer (0x47 :: p)) = .next (
      if p.length ≠ 0 then s.answered [0x03]
      else match s.S with
        | none => s.answered [0x05]
        | some b => { s with S := some (invMixColumns b) }.answered [0x00])) ∧
  (∀ (s : State) (b : Block), s.S = some b →
    exec .mixcolumns s =
      .next { s with S := some (mixColumns b), responses := s.responses ++ [[0x00]] } ∧
    exec .invmixcolumns s =
      .next { s with S := some (invMixColumns b), responses := s.responses ++ [[0x00]] }) ∧
  ∀ (b : Block) (c : Fin 4),
    let a0 := b[4 * c.val]
    let a1 := b[4 * c.val + 1]
    let a2 := b[4 * c.val + 2]
    let a3 := b[4 * c.val + 3]
    (mixColumns b)[4 * c.val] = gmul 2 a0 ^^^ gmul 3 a1 ^^^ a2 ^^^ a3 ∧
    (mixColumns b)[4 * c.val + 1] = a0 ^^^ gmul 2 a1 ^^^ gmul 3 a2 ^^^ a3 ∧
    (mixColumns b)[4 * c.val + 2] = a0 ^^^ a1 ^^^ gmul 2 a2 ^^^ gmul 3 a3 ∧
    (mixColumns b)[4 * c.val + 3] = gmul 3 a0 ^^^ a1 ^^^ a2 ^^^ gmul 2 a3 ∧
    (invMixColumns b)[4 * c.val] = gmul 14 a0 ^^^ gmul 11 a1 ^^^ gmul 13 a2 ^^^ gmul 9 a3 ∧
    (invMixColumns b)[4 * c.val + 1] = gmul 9 a0 ^^^ gmul 14 a1 ^^^ gmul 11 a2 ^^^ gmul 13 a3 ∧
    (invMixColumns b)[4 * c.val + 2] = gmul 13 a0 ^^^ gmul 9 a1 ^^^ gmul 14 a2 ^^^ gmul 11 a3 ∧
    (invMixColumns b)[4 * c.val + 3] = gmul 11 a0 ^^^ gmul 13 a1 ^^^ gmul 9 a2 ^^^ gmul 14 a3

/-- spec/44_round_transform.md R148, R150, spec/30_encoding.md R78: opcodes 0x50 to 0x5A are ADDROUNDKEY
0 to 10, checked for a payload, then a key, then a state; 0x5B to 0x5F are illegal. -/
def Obligations.AddroundkeyXorsTheRoundKey : Prop :=
  (∀ (s : State) (p : List Byte) (k : Fin 11),
    step (s.offer ((0x50 + BitVec.ofNat 8 k.val) :: p)) = .next (
      if p.length ≠ 0 then s.answered [0x03]
      else match s.W, s.S with
        | none, _ => s.answered [0x04]
        | some _, none => s.answered [0x05]
        | some w, some b =>
          { s with S := some (addRoundKey b (roundKey w k)) }.answered [0x00])) ∧
  (∀ (s : State) (p : List Byte) (k : Nat), 11 ≤ k → k ≤ 15 →
    step (s.offer ((0x50 + BitVec.ofNat 8 k) :: p)) = .next (s.answered [0x06])) ∧
  (∀ (k : Fin 11) (s : State) (w : ExpandedKey) (b : Block), s.W = some w → s.S = some b →
    exec (.addroundkey (BitVec.ofNat 4 k.val)) s = .next { s with
      S := some (addRoundKey b (roundKey w k)), responses := s.responses ++ [[0x00]] }) ∧
  (∀ (b : Block) (rk : RoundKey) (r c : Fin 4),
    (addRoundKey b rk)[r.val + 4 * c.val] = b[r.val + 4 * c.val] ^^^ byteOf rk[c] r) ∧
  (∀ (b : Block) (rk : RoundKey), addRoundKey (addRoundKey b rk) rk = b) ∧
  ∀ (w : ExpandedKey) (k : Fin 11) (c : Fin 4), (roundKey w k)[c] = w[4 * k.val + c.val]

/-- spec/44_round_transform.md R157. -/
def Obligations.RoundFunctionsUndoEachOther : Prop :=
  ∀ b : Block,
    invSubBytes (subBytes b) = b ∧ subBytes (invSubBytes b) = b ∧
    invShiftRows (shiftRows b) = b ∧ shiftRows (invShiftRows b) = b ∧
    invMixColumns (mixColumns b) = b ∧ mixColumns (invMixColumns b) = b ∧
    ∀ rk : RoundKey, addRoundKey (addRoundKey b rk) rk = b

/-- spec/44_round_transform.md R158 (a) to (c). -/
def Obligations.WhichRoundFunctionsCommute : Prop :=
  (∀ b : Block, shiftRows (subBytes b) = subBytes (shiftRows b) ∧
    invShiftRows (invSubBytes b) = invSubBytes (invShiftRows b)) ∧
  (∃ (b : Block) (rk : RoundKey), mixColumns (addRoundKey b rk) ≠ addRoundKey (mixColumns b) rk) ∧
  (∃ (b : Block) (rk : RoundKey), invMixColumns (addRoundKey b rk) ≠ addRoundKey (invMixColumns b) rk) ∧
  (∀ (b : Block) (rk : RoundKey) (i : Fin 16), (invMixColumns (addRoundKey b rk))[i] =
    (invMixColumns b)[i] ^^^ (invMixColumns (roundKeyBytes rk))[i]) ∧
  ∃ b : Block, shiftRows (mixColumns b) ≠ mixColumns (shiftRows b)

/-! ### The block cipher -/

/-- spec/45_block_cipher.md R171, R172: the eleven positions in order, SEQ back at IDLE, S without value,
W unchanged. -/
def Obligations.EncryptRunsTheForwardRounds : Prop :=
  let cipher (w : ExpandedKey) (b : Block) : Block :=
    addRoundKey (shiftRows (subBytes
      (([1, 2, 3, 4, 5, 6, 7, 8, 9] : List (Fin 11)).foldl
        (fun x p => addRoundKey (mixColumns (shiftRows (subBytes x))) (roundKey w p))
        (addRoundKey b (roundKey w 0))))) (roundKey w 10)
  (∀ (s : State) (p : List Byte), p.length ≠ 16 →
    step (s.offer (0x60 :: p)) = .next (s.answered [0x02])) ∧
  (∀ (s : State) (b : Block),
    step (s.offer (0x60 :: b.toList)) = .next (
      match s.W with
      | none => s.answered [0x04]
      | some w => { s with S := none, SEQ := .idle }.answered (0x00 :: (cipher w b).toList))) ∧
  ∀ (b : Block) (s : State) (w : ExpandedKey), s.W = some w →
    exec (.encrypt b) s = .next { s with
      S := none, SEQ := .idle, responses := s.responses ++ [0x00 :: (cipher w b).toList] }

/-- spec/45_block_cipher.md R174, R175: round key 10 first; in each middle position the round key is
added before invMixColumns. -/
def Obligations.DecryptRunsTheInverseRounds : Prop :=
  let decipher (w : ExpandedKey) (b : Block) : Block :=
    addRoundKey
      (([9, 8, 7, 6, 5, 4, 3, 2, 1] : List (Fin 11)).foldl
        (fun x p => invSubBytes (invShiftRows (invMixColumns (addRoundKey x (roundKey w p)))))
        (invSubBytes (invShiftRows (addRoundKey b (roundKey w 10))))) (roundKey w 0)
  (∀ (s : State) (p : List Byte), p.length ≠ 16 →
    step (s.offer (0x61 :: p)) = .next (s.answered [0x02])) ∧
  (∀ (s : State) (b : Block),
    step (s.offer (0x61 :: b.toList)) = .next (
      match s.W with
      | none => s.answered [0x04]
      | some w => { s with S := none, SEQ := .idle }.answered (0x00 :: (decipher w b).toList))) ∧
  ∀ (b : Block) (s : State) (w : ExpandedKey), s.W = some w →
    exec (.decrypt b) s = .next { s with
      S := none, SEQ := .idle, responses := s.responses ++ [0x00 :: (decipher w b).toList] }

/-- spec/45_block_cipher.md R179, spec/10_state.md R25: SEQ runs through ENC(0) to ENC(10), or DEC(10) to
DEC(0), and is at IDLE after exactly eleven positions. -/
def Obligations.SequencerVisitsElevenPositions : Prop :=
  ∀ (w : ExpandedKey) (b : Block),
    (∀ n : Fin 11, (runPositions w n.val (.enc 0, b)).1 = .enc n ∧
      (runPositions w n.val (.dec 10, b)).1 = .dec (10 - n)) ∧
    (runEncrypt w b).1 = .idle ∧ (runDecrypt w b).1 = .idle

/-- spec/45_block_cipher.md R177: under any W, DECRYPT of ENCRYPT's result is the block, and the other
way round, whatever else the two states hold. -/
def Obligations.EncryptAndDecryptAreInverse : Prop :=
  ∀ (s t : State) (w : ExpandedKey) (b : Block), s.W = some w → t.W = some w →
    (∃ c : Block,
      exec (.encrypt b) s = .next { s with
        S := none, SEQ := .idle, responses := s.responses ++ [0x00 :: c.toList] } ∧
      exec (.decrypt c) t = .next { t with
        S := none, SEQ := .idle, responses := t.responses ++ [0x00 :: b.toList] }) ∧
    ∃ c : Block,
      exec (.decrypt b) s = .next { s with
        S := none, SEQ := .idle, responses := s.responses ++ [0x00 :: c.toList] } ∧
      exec (.encrypt c) t = .next { t with
        S := none, SEQ := .idle, responses := t.responses ++ [0x00 :: b.toList] }

/-- spec/45_block_cipher.md R176: ENCSTEPS b and DECSTEPS b give in their last response the bytes of
ENCRYPT b and DECRYPT b, and leave them in S. -/
def Obligations.StepSequencesComputeTheCipher : Prop :=
  ∀ (s : State) (w : ExpandedKey) (b : Block), s.W = some w →
    (∃ o : Block,
      execAll (encSteps b) s = .next { s with
        S := some o
        responses := s.responses ++ List.replicate 41 [0x00] ++ [0x00 :: o.toList] } ∧
      exec (.encrypt b) s = .next { s with
        S := none, SEQ := .idle, responses := s.responses ++ [0x00 :: o.toList] }) ∧
    ∃ o : Block,
      execAll (decSteps b) s = .next { s with
        S := some o
        responses := s.responses ++ List.replicate 41 [0x00] ++ [0x00 :: o.toList] } ∧
      exec (.decrypt b) s = .next { s with
        S := none, SEQ := .idle, responses := s.responses ++ [0x00 :: o.toList] }

/-- spec/45_block_cipher.md R178: the answer of ENCRYPT and DECRYPT is a function of the payload and W
alone. -/
def Obligations.BlockAnswerDependsOnPayloadAndKeyAlone : Prop :=
  ∀ (b : Block) (i : Instr), i = .encrypt b ∨ i = .decrypt b →
    ∃ answer : Option ExpandedKey → Frame, ∀ s : State, ∃ t,
      exec i s = .next t ∧ t.responses = s.responses ++ [answer s.W]

/-! ### The whole machine -/

/-- spec/10_state.md R23, R25: in every step, from any state where SEQ is at IDLE and W, if it holds a
value, is an expanded key, the same is true of the next state. -/
def Obligations.StepKeepsTheGoodState : Prop :=
  ∀ s t : State, s.Inv → step s = .next t → t.Inv

/-- The state after reset is a good state. -/
def Obligations.ResetIsAGoodState : Prop := State.reset.Inv

/-- spec/60_exceptions.md R235: every command is total on every state and every step has an outcome; the
machine never faults or refuses. -/
def Obligations.EveryCommandAndStepCompletes : Prop :=
  (∀ (i : Instr) (s : State), ∃ t, exec i s = .next t) ∧ ∀ s : State, safeStep s

/-- spec/60_exceptions.md R222: a step that answers with a status other than 0x00 answers with that one
byte and changes nothing but taking the frame. -/
def Obligations.FailedCommandHasNoEffect : Prop :=
  ∀ (s t : State) (f r : Frame) (rest : List Frame),
    s.resetLine = false → s.commands = f :: rest → step s = .next t →
    t.responses = s.responses ++ [r] → r.head? ≠ some 0x00 →
      r.length = 1 ∧ t = { s with commands := rest, responses := s.responses ++ [r] }

/-- spec/30_encoding.md R73, R74, spec/60_exceptions.md R220: every command adds one response, which is a
non-OK status alone, or OK and as many bytes as the command's format says. -/
def Obligations.ResponsesHaveTheirFormat : Prop :=
  (∀ (i : Instr) (s t : State), exec i s = .next t →
    ∃ r, t.responses = s.responses ++ [r] ∧
      ((∃ e, e ≠ Status.ok ∧ r = [statusCode e]) ∨
        ∃ result, r = 0x00 :: result ∧ result.length = i.op.row.result)) ∧
  (∀ e, statusCode e ∈ ([0, 1, 2, 3, 4, 5, 6, 7] : List Byte)) ∧
  ∀ s t : State, (∀ r ∈ s.responses, legalResponse r) → step s = .next t →
    ∀ r ∈ t.responses, legalResponse r

/-- spec/30_encoding.md R85, spec/60_exceptions.md R226, R237: with reset released a waiting frame is
taken and answered with exactly one frame; with none waiting nothing changes (the model's inference, log
entry 8); with reset asserted nothing is answered, and the responses already emitted stay (the model's
inference, log entry 9). -/
def Obligations.OneResponsePerFrameAndNoOther : Prop :=
  (∀ (s : State) (f : Frame) (rest : List Frame), s.resetLine = false → s.commands = f :: rest →
    ∃ t r, step s = .next t ∧ t.commands = rest ∧ t.responses = s.responses ++ [r]) ∧
  (∀ s : State, s.resetLine = false → s.commands = [] → step s = .next s) ∧
  ∀ s : State, s.resetLine = true → ∃ t, step s = .next t ∧ t.responses = s.responses

/-- spec/70_reset_and_hazards.md R250: while reset is asserted the core is in the reset state, takes no
command and answers nothing; when it is released the state is the reset state; a command cut short leaves
no effect and gets no response. Of the frames that were waiting some are left, unaltered and in order
(spec/30_encoding.md R84); which ones is free (log entry 2). That responses already emitted stay on their
channel is the model's inference and not R250's (log entry 9). -/
def Obligations.ResetInputGivesTheResetState : Prop :=
  (∀ s : State, s.resetLine = true → ∃ t, step s = .next t ∧
    t.W = none ∧ t.S = none ∧ t.SEQ = .idle ∧ t.resetLine = true ∧ t.responses = s.responses ∧
    t.commands.Sublist s.commands) ∧
  (∀ s : State, s.releaseReset.W = State.reset.W ∧ s.releaseReset.S = State.reset.S ∧
    s.releaseReset.SEQ = State.reset.SEQ ∧ s.releaseReset.resetLine = false ∧
    s.releaseReset.responses = s.responses ∧ s.releaseReset.commands.Sublist s.commands) ∧
  ∀ (s : State) (f : Frame) (rest : List Frame), s.resetLine = false → s.commands = f :: rest →
    s.cutByReset.W = none ∧ s.cutByReset.S = none ∧ s.cutByReset.SEQ = .idle ∧
    s.cutByReset.resetLine = true ∧ s.cutByReset.responses = s.responses ∧
    s.cutByReset.commands.Sublist rest

/-- spec/10_state.md R31, R26, R27: who may write what. No command touches the channels of commands, the
reset input or the model's counter. -/
def Obligations.OnlyTheNamedCommandsWriteEachRegister : Prop :=
  ∀ (i : Instr) (s t : State), exec i s = .next t →
    t.commands = s.commands ∧ t.resetLine = s.resetLine ∧ t.transportDraws = s.transportDraws ∧
    (t.W ≠ s.W → i = .clear ∨ ∃ key, i = .expandkey key) ∧
    (t.S ≠ s.S → i = .clear ∨ (∃ b, i = .ldstate b) ∨ (∃ b, i = .encrypt b) ∨ (∃ b, i = .decrypt b) ∨
      (∃ k, i = .addroundkey k) ∨ i ∈ [.subbytes, .invsubbytes, .shiftrows, .invshiftrows, .mixcolumns,
        .invmixcolumns]) ∧
    (t.SEQ ≠ s.SEQ → (∃ b, i = .encrypt b) ∨ ∃ b, i = .decrypt b) ∧
    (s.S = none → t.S ≠ none → ∃ b, i = .ldstate b) ∧
    (s.W = none → t.W ≠ none → ∃ key, i = .expandkey key)

/-- spec/70_reset_and_hazards.md R253: what each event leaves valid. -/
def Obligations.WhatEachEventLeavesValid : Prop :=
  (∀ s : State, s.releaseReset.W = none ∧ s.releaseReset.S = none) ∧
  ∀ (i : Instr) (s t : State) (r : Frame), exec i s = .next t → t.responses = s.responses ++ [r] →
    if r.head? = some 0x00 then
      match i with
      | .clear => t.W = none ∧ t.S = none
      | .expandkey key => t.W = some (expandKey key) ∧ t.S = s.S
      | .ldstate b => t.W = s.W ∧ t.S = some b
      | .subbytes | .invsubbytes | .shiftrows | .invshiftrows | .mixcolumns | .invmixcolumns
      | .addroundkey _ => t.W = s.W ∧ s.S.isSome ∧ t.S.isSome
      | .encrypt _ | .decrypt _ => t.W = s.W ∧ t.S = none
      | .nop | .status | .xtime _ | .gfmul _ _ | .subbyte _ | .invsubbyte _
      | .rdrk _ | .rotword _ | .subword _ | .rdstate => t.W = s.W ∧ t.S = s.S
    else t.W = s.W ∧ t.S = s.S

/-- spec/70_reset_and_hazards.md R252: which error answers a command sent before its initialisation. -/
def Obligations.MissingKeyOrStateIsAnswered : Prop :=
  (∀ (s : State) (k : Fin 11) (b : Block), s.W = none →
    exec (.rdrk (BitVec.ofNat 8 k.val)) s = .next { s with responses := s.responses ++ [[0x04]] } ∧
    exec (.encrypt b) s = .next { s with responses := s.responses ++ [[0x04]] } ∧
    exec (.decrypt b) s = .next { s with responses := s.responses ++ [[0x04]] } ∧
    exec (.addroundkey (BitVec.ofNat 4 k.val)) s =
      .next { s with responses := s.responses ++ [[0x04]] }) ∧
  (∀ (s : State) (i : Instr), s.S = none →
    i ∈ [.rdstate, .subbytes, .invsubbytes, .shiftrows, .invshiftrows, .mixcolumns, .invmixcolumns] →
    exec i s = .next { s with responses := s.responses ++ [[0x05]] }) ∧
  ∀ (s : State) (k : Fin 11), s.W ≠ none → s.S = none →
    exec (.addroundkey (BitVec.ofNat 4 k.val)) s = .next { s with responses := s.responses ++ [[0x05]] }

/-- spec/70_reset_and_hazards.md R260: after EXPANDKEY, and after any other commands but EXPANDKEY and
CLEAR, RDRK 00 returns the key. -/
def Obligations.KeyStaysReadable : Prop :=
  ∀ (s t : State) (key : Block) (is : List Instr),
    (∀ i ∈ is, i ≠ .clear ∧ ∀ key', i ≠ .expandkey key') →
    execAll (.expandkey key :: is) s = .next t →
    exec (.rdrk 0) t = .next { t with responses := t.responses ++ [0x00 :: key.toList] }

/-! ### Decoding, encoding and the step -/

/-- spec/30_encoding.md R81: when the next frame decodes to a command, the step is that command run from
the state with the frame taken. The second clause says the same of a table word placed by
`withFetchWord`; the layout of a table word, its place before the frames that wait and the release of
reset are the model's choice (DESIGN CHOICE, log entry 4). -/
def Obligations.StepRunsTheDecodedCommand : Prop :=
  (∀ (s : State) (f : Frame) (rest : List Frame) (i : Instr),
    s.resetLine = false → s.commands = f :: rest → decode f = .ok i →
    step s = exec i { s with commands := rest }) ∧
  ∀ (s : State) (nbits w : Nat) (i : Instr), decodeTableWord nbits w = some i →
    step (s.withFetchWord nbits w) = exec i { s with resetLine := false }

/-- spec/30_encoding.md R81, spec/60_exceptions.md R220: a frame the decoder rejects is answered with its
status, and nothing else changes. -/
def Obligations.StepAnswersARejectedFrame : Prop :=
  ∀ (s : State) (f : Frame) (rest : List Frame) (e : Status),
    s.resetLine = false → s.commands = f :: rest → decode f = .error e →
    e ≠ .ok ∧ step s = .next { s with commands := rest, responses := s.responses ++ [[statusCode e]] }

/-- spec/30_encoding.md R79: the 32 legal opcodes; any other, and the empty frame, is ILLEGAL_OPCODE
whatever the payload, with no effect. -/
def Obligations.IllegalOpcodesAreRejected : Prop :=
  let legal : List Byte := [0x00, 0x01, 0x02, 0x10, 0x11, 0x20, 0x21, 0x30, 0x31, 0x32, 0x33,
    0x40, 0x41, 0x42, 0x43, 0x44, 0x45, 0x46, 0x47,
    0x50, 0x51, 0x52, 0x53, 0x54, 0x55, 0x56, 0x57, 0x58, 0x59, 0x5A, 0x60, 0x61]
  decode [] = .error .illegalOpcode ∧
  (∀ (op : Byte) (p : List Byte), decode (op :: p) = .error .illegalOpcode ↔ op ∉ legal) ∧
  ∀ s : State, step (s.offer []) = .next (s.answered [0x06]) ∧
    ∀ (op : Byte) (p : List Byte), op ∉ legal → step (s.offer (op :: p)) = .next (s.answered [0x06])

/-- spec/30_encoding.md R75: a legal opcode takes exactly one payload length; any other length, shorter or
longer, is answered with the command's length status and has no effect. -/
def Obligations.PayloadLengthIsExact : Prop :=
  let exact (ops : List Byte) (n : Nat) (e : Status) (code : Byte) : Prop :=
    ∀ op ∈ ops, ∀ p : List Byte,
      (p.length = n → ∃ i, decode (op :: p) = .ok i) ∧
      (p.length ≠ n → decode (op :: p) = .error e ∧
        ∀ s : State, step (s.offer (op :: p)) = .next (s.answered [code]))
  exact [0x30] 16 .invalidKeyLength 0x01 ∧
  exact [0x40, 0x60, 0x61] 16 .invalidBlockLength 0x02 ∧
  exact [0x32, 0x33] 4 .invalidOperandLength 0x03 ∧
  exact [0x11] 2 .invalidOperandLength 0x03 ∧
  exact [0x10, 0x20, 0x21, 0x31] 1 .invalidOperandLength 0x03 ∧
  exact [0x00, 0x01, 0x02, 0x41, 0x42, 0x43, 0x44, 0x45, 0x46, 0x47, 0x50, 0x51, 0x52, 0x53, 0x54, 0x55,
    0x56, 0x57, 0x58, 0x59, 0x5A] 0 .invalidOperandLength 0x03

/-- spec/60_exceptions.md R224: of several errors the first of this order is answered: illegal opcode,
length, round index (RDRK), no key, no state. -/
def Obligations.FirstErrorIsAnswered : Prop :=
  ∀ (s : State) (op : Byte) (p : List Byte),
    (∀ e, decode (op :: p) = .error e →
      step (s.offer (op :: p)) = .next (s.answered [
        if decode [op] = .error .illegalOpcode then 0x06
        else if op = 0x30 then 0x01
        else if op ∈ ([0x40, 0x60, 0x61] : List Byte) then 0x02
        else 0x03])) ∧
    ∀ i, decode (op :: p) = .ok i → (∃ r, exec i s = .next { s with responses := s.responses ++ [[r]] } ∧
        r ≠ 0x00) →
      exec i s = .next { s with responses := s.responses ++ [[
        match i with
        | .rdrk k => if 10 < k.toNat then 0x07 else 0x04
        | .addroundkey _ => if s.W = none then 0x04 else 0x05
        | .encrypt _ | .decrypt _ => 0x04
        | _ => 0x05]] }

/-- Decoding the encoding of a well-formed command gives the command, with every operand at every
value. -/
def Obligations.DecodeEncodeRoundTrip : Prop :=
  ∀ i : Instr, i.wellFormed = true → decode (encode i) = .ok i

/-- A frame the decoder accepts is the encoding of the command it stands for, which is well formed. -/
def Obligations.EncodeDecodeRoundTrip : Prop :=
  ∀ (f : Frame) (i : Instr), decode f = .ok i → i.wellFormed = true ∧ encode i = f

/-- A few frames written out from the opcode map of spec/30_encoding.md R76 and the examples of R82. -/
def Obligations.WrittenFramesDecode : Prop :=
  decode [0x00] = .ok .nop ∧
  decode [0x11, 0x57, 0x83] = .ok (.gfmul 0x57 0x83) ∧
  decode [0x21, 0xED] = .ok (.invsubbyte 0xED) ∧
  decode [0x32, 0x09, 0xCF, 0x4F, 0x3C] = .ok (.rotword 0x09CF4F3C) ∧
  decode [0x31, 0x0A] = .ok (.rdrk 10) ∧
  decode [0x46] = .ok .mixcolumns ∧
  decode [0x5A] = .ok (.addroundkey 10) ∧
  decode [0x60, 0, 1, 2, 3, 4, 5, 6, 7, 8, 9, 10, 11, 12, 13, 14, 15] =
    .ok (.encrypt #v[0, 1, 2, 3, 4, 5, 6, 7, 8, 9, 10, 11, 12, 13, 14, 15])

/-! ### The host wrapper -/

/-- spec/47_host_wrapper.md R201, R208 (b): a padded message ends in `n` bytes `n` with `n` in 1..16, is a
positive multiple of 16 long, and unpads to the message. -/
def Obligations.PadIsUndoneByUnpad : Prop :=
  ∀ m : List Byte,
    (∃ n : Nat, 1 ≤ n ∧ n ≤ 16 ∧ pad m = m ++ List.replicate n (BitVec.ofNat 8 n)) ∧
    (pad m).length % 16 = 0 ∧ m.length / 16 * 16 < (pad m).length ∧
    unpad (pad m) = .ok m

/-- spec/47_host_wrapper.md R202: `unpad` succeeds with `m` exactly on `m` followed by `n` bytes `n`, `n` in
1..16, of a total length that is a multiple of 16; on everything else it is a PaddingError. -/
def Obligations.UnpadAcceptsExactlyPaddedData : Prop :=
  ∀ data : List Byte,
    (∀ m, unpad data = .ok m ↔ data.length % 16 = 0 ∧
      ∃ n : Nat, 1 ≤ n ∧ n ≤ 16 ∧ data = m ++ List.replicate n (BitVec.ofNat 8 n)) ∧
    ∀ e, unpad data = .error e → e = .paddingError

/-- spec/47_host_wrapper.md R208 (a): decrypting what was encrypted gives the message back, on a core whose
channels are empty and whose reset is released (log entry 16). -/
def Obligations.EcbRoundTrip : Prop :=
  ∀ (s : State) (m key : List Byte), key.length = 16 →
    s.commands = [] → s.responses = [] → s.resetLine = false →
    ∃ (c : List Byte) (t u : State), encryptEcb m key s = (.ok c, t) ∧
      c.length = (pad m).length ∧ decryptEcb c key t = (.ok m, u)

/-- spec/47_host_wrapper.md R203, R204, R208 (d): wrong lengths fail before any command is sent, the
ciphertext's before the key's. -/
def Obligations.EcbRejectsWrongLengths : Prop :=
  ∀ (s : State) (m key : List Byte),
    (key.length ≠ 16 → encryptEcb m key s = (.error .invalidKeyLength, s)) ∧
    (m.length = 0 ∨ m.length % 16 ≠ 0 → decryptEcb m key s = (.error .invalidCiphertextLength, s)) ∧
    (m.length ≠ 0 → m.length % 16 = 0 → key.length ≠ 16 →
      decryptEcb m key s = (.error .invalidKeyLength, s))
end

