-- ==== Sys2Proof/Laws/Decode.lean ====
section
/-! SUPPORT. The decoder, case by case, and words as bytes and back. -/

namespace Sys2Proof

open Sys2Proof.Machine

theorem decode_cons_of_none {op : Byte} (p : List Byte) (h : selectOp op = none) :
    decode (op :: p) = .error .illegalOpcode := by
  simp [decode, h]

theorem decode_cons_of_some {op : Byte} {o : Op} (p : List Byte) (h : selectOp op = some o)
    (hk : roundOutOfRange o op = false) :
    decode (op :: p) =
      if p.length ≠ o.row.payload then .error o.lengthStatus else .ok (formCommand o op p) := by
  simp [decode, h, hk]

/-- What an accepted frame is. -/
theorem decode_ok {f : Frame} {i : Instr} (h : decode f = .ok i) :
    ∃ op p o, f = op :: p ∧ selectOp op = some o ∧ roundOutOfRange o op = false ∧
      p.length = o.row.payload ∧ i = formCommand o op p := by
  cases f with
  | nil => simp [decode] at h
  | cons op p =>
    cases ho : selectOp op with
    | none => simp [decode, ho] at h
    | some o =>
      cases hk : roundOutOfRange o op with
      | true => simp [decode, ho, hk] at h
      | false =>
        rw [decode_cons_of_some p ho hk] at h
        split at h
        · cases h
        · next hl => exact ⟨op, p, o, rfl, ho, hk, by simpa using hl, (Except.ok.inj h).symm⟩

/-- Reading a block back from its bytes. -/
@[simp] theorem payloadBlock_blockBytes (b : Block) : payloadBlock (blockBytes b) = b := by
  ext i hi
  simp [payloadBlock, payloadByte, blockBytes]

/-- Laying out a block read from sixteen bytes. -/
theorem blockBytes_payloadBlock {p : List Byte} (h : p.length = 16) : blockBytes (payloadBlock p) = p := by
  apply List.ext_getElem
  · simp [blockBytes, h]
  · intro i h1 h2
    simp [blockBytes, payloadBlock, payloadByte, h2]

theorem packWord_byteOf (w : Word) : packWord (byteOf w 0) (byteOf w 1) (byteOf w 2) (byteOf w 3) = w := by
  apply BitVec.eq_of_getLsbD_eq
  intro i hi
  simp only [packWord, byteOf, BitVec.getLsbD_append, BitVec.getLsbD_extractLsb']
  rcases Nat.lt_or_ge i 8 with h | h
  · simp [h]
  rcases Nat.lt_or_ge i 16 with h' | h'
  · simp [show ¬ i < 8 by omega, show i - 8 < 8 by omega, show 8 + (i - 8) = i by omega]
  rcases Nat.lt_or_ge i 24 with h'' | h''
  · simp [show ¬ i < 8 by omega, show ¬ i - 8 < 8 by omega, show i - 8 - 8 < 8 by omega,
      show 16 + (i - 8 - 8) = i by omega]
  · simp [show ¬ i < 8 by omega, show ¬ i - 8 < 8 by omega, show ¬ i - 8 - 8 < 8 by omega,
      show i - 8 - 8 - 8 < 8 by omega, show 24 + (i - 8 - 8 - 8) = i by omega]

theorem byteOf_packWord (b0 b1 b2 b3 : Byte) (j : Fin 4) :
    byteOf (packWord b0 b1 b2 b3) j = #v[b0, b1, b2, b3][j] := by
  apply BitVec.eq_of_getLsbD_eq
  intro i hi
  fin_cases j <;> simp only [packWord, byteOf, BitVec.getLsbD_append, BitVec.getLsbD_extractLsb'] <;>
    simp [hi]
  · simp [show 24 + i - 8 - 8 - 8 = i by omega, show ¬ 24 + i < 8 by omega, show ¬ 24 + i - 8 < 8 by omega,
      show ¬ 24 + i - 8 - 8 < 8 by omega, BitVec.getLsbD_eq_getElem hi]
  · simp [show 16 + i - 8 - 8 = i by omega, show ¬ 16 + i < 8 by omega, show ¬ 16 + i - 8 < 8 by omega, hi]

end Sys2Proof
end

