-- ==== Sys2Proof/Laws/Field.lean ====
section
/-! SUPPORT. The field multiplier is linear in its second operand, and in its first. -/

namespace Sys2Proof.Machine

@[simp] theorem xtime_zero : xtime 0#8 = 0#8 := by decide

/-- Doubling is linear (spec/41_field_arithmetic.md R100). -/
theorem xtime_xor (a b : Byte) : xtime (a ^^^ b) = xtime a ^^^ xtime b := by
  unfold xtime
  rw [BitVec.getLsbD_xor, BitVec.shiftLeft_xor_distrib]
  cases a.getLsbD 7 <;> cases b.getLsbD 7 <;> simp
  · ac_rfl
  · ac_rfl
  · rw [show a <<< 1 ^^^ 27#8 ^^^ (b <<< 1 ^^^ 27#8) = a <<< 1 ^^^ b <<< 1 ^^^ (27#8 ^^^ 27#8) by ac_rfl]
    simp

/-- The accumulator of the loop is XORed onto the product. -/
theorem gmulLoop_acc (n : Nat) (acc a b : Byte) : gmulLoop n acc a b = acc ^^^ gmulLoop n 0 a b := by
  induction n generalizing acc a b with
  | zero => simp [gmulLoop]
  | succ n ih =>
    simp only [gmulLoop]
    rw [ih, ih (if b.getLsbD 0 then 0 ^^^ a else 0)]
    cases b.getLsbD 0 <;> simp [BitVec.xor_assoc]

theorem gmulLoop_xor_right (n : Nat) (a b c : Byte) :
    gmulLoop n 0 a (b ^^^ c) = gmulLoop n 0 a b ^^^ gmulLoop n 0 a c := by
  induction n generalizing a b c with
  | zero => simp [gmulLoop]
  | succ n ih =>
    simp only [gmulLoop]
    rw [gmulLoop_acc, gmulLoop_acc n (if b.getLsbD 0 then _ else _),
      gmulLoop_acc n (if c.getLsbD 0 then _ else _), BitVec.ushiftRight_xor_distrib, ih]
    rw [BitVec.getLsbD_xor]
    cases b.getLsbD 0 <;> cases c.getLsbD 0 <;> simp
    · ac_rfl
    · ac_rfl
    · rw [show a ^^^ gmulLoop n 0#8 (xtime a) (b >>> 1) ^^^ (a ^^^ gmulLoop n 0#8 (xtime a) (c >>> 1)) =
        (a ^^^ a) ^^^ (gmulLoop n 0#8 (xtime a) (b >>> 1) ^^^ gmulLoop n 0#8 (xtime a) (c >>> 1)) by ac_rfl]
      simp

theorem gmulLoop_xor_left (n : Nat) (a b c : Byte) :
    gmulLoop n 0 (a ^^^ b) c = gmulLoop n 0 a c ^^^ gmulLoop n 0 b c := by
  induction n generalizing a b c with
  | zero => simp [gmulLoop]
  | succ n ih =>
    simp only [gmulLoop]
    rw [gmulLoop_acc, gmulLoop_acc n (if c.getLsbD 0 then 0 ^^^ a else _),
      gmulLoop_acc n (if c.getLsbD 0 then 0 ^^^ b else _), xtime_xor, ih]
    cases c.getLsbD 0 <;> simp; ac_rfl

/-- `gmul` distributes over XOR on the left (it is linear in its first operand). -/
theorem gmul_xor_left (a b c : Byte) : gmul (a ^^^ b) c = gmul a c ^^^ gmul b c :=
  gmulLoop_xor_left 8 a b c

/-- One iteration on a product with a doubled operand: the loop commutes with doubling. -/
theorem gmulLoop_xtime (n : Nat) (a b : Byte) :
    gmulLoop n 0 (xtime a) b = xtime (gmulLoop n 0 a b) := by
  induction n generalizing a b with
  | zero => simp [gmulLoop]
  | succ n ih =>
    simp only [gmulLoop]
    rw [gmulLoop_acc, gmulLoop_acc n (if b.getLsbD 0 then 0 ^^^ a else 0), xtime_xor, ih]
    cases b.getLsbD 0 <;> simp

end Sys2Proof.Machine
end

