-- ==== Sys2Proof/Laws/HostWrapper.lean ====
section
/-! SUPPORT. What the host program accepts from the core, and the length of what it returns. -/

namespace Sys2Proof.Machine

/-- An accepted response is OK and exactly the expected number of bytes. -/
theorem okResult_eq_some {n : Nat} {r : Frame} {out : List Byte} :
    okResult n r = some out ↔ r = statusCode .ok :: out ∧ out.length = n := by
  cases r with
  | nil => simp [okResult]
  | cons status result =>
    simp only [okResult, Option.ite_none_right_eq_some, Option.some.injEq, List.cons.injEq]
    constructor
    · rintro ⟨⟨hs, hl⟩, rfl⟩
      exact ⟨⟨hs, rfl⟩, hl⟩
    · rintro ⟨⟨hs, rfl⟩, hl⟩
      exact ⟨⟨hs, hl⟩, rfl⟩

/-- Whatever the channels hold, blocks that come back come back whole: one result per block sent
(spec/47_host_wrapper.md R203, R205). -/
theorem sendBlocks_length {o : Op} {bs : List (List Byte)} {s t : State} {out : List Byte}
    (h : sendBlocks o bs s = (.ok out, t)) : out.length = bs.length * o.row.result := by
  induction bs generalizing s out with
  | nil => cases h; simp
  | cons b bs ih =>
    unfold sendBlocks at h
    split at h
    · cases h
    · split at h
      · cases h
      · next c hc =>
        split at h
        · next rest u hrest =>
          cases h
          rw [List.length_append, (okResult_eq_some.mp hc).2, ih hrest, List.length_cons, Nat.succ_mul,
            Nat.add_comm]
        · cases h

end Sys2Proof.Machine
end

