-- ==== Sys2Proof/Laws/KeySchedule.lean ====
section
/-! SUPPORT. How the words of the key schedule grow: earlier words stay, and the new one is `nextWord`. -/

namespace Sys2Proof.Machine

/-- Adding a word leaves the words below it as they were. -/
theorem expandWords_succ_lt (key : Block) (n : Nat) (h : n + 1 ≤ 40) (i : Nat) (hi : i < n + 4) :
    (expandWords key (n + 1) h)[i] = (expandWords key n (by omega))[i] := by
  simp only [expandWords]
  exact Vector.getElem_push_lt hi

/-- The word added is `nextWord` of the words below it. -/
theorem expandWords_succ_last (key : Block) (n : Nat) (h : n + 1 ≤ 40) :
    (expandWords key (n + 1) h)[n + 4] = nextWord n (by omega) (expandWords key n (by omega)) := by
  simp only [expandWords]
  exact Vector.getElem_push_eq

/-- A word, once built, is the word of the finished key. -/
theorem expandWords_stable (key : Block) (m n : Nat) (hm : m ≤ 40) (hn : n ≤ m) (i : Nat) (hi : i < n + 4) :
    (expandWords key m hm)[i] = (expandWords key n (by omega))[i] := by
  induction m with
  | zero => obtain rfl : n = 0 := by omega
            rfl
  | succ m ih =>
    by_cases h : n = m + 1
    · subst h; rfl
    · rw [expandWords_succ_lt key m hm i (by omega)]
      exact ih (by omega) (by omega)

theorem expandKey_eq_expandWords (key : Block) (n : Nat) (hn : n ≤ 40) (i : Nat) (hi : i < n + 4) :
    (expandKey key)[i] = (expandWords key n hn)[i] :=
  expandWords_stable key 40 n (by omega) hn i hi

end Sys2Proof.Machine
end

