-- ==== Sys2Proof/Laws/State.lean ====
section
/-! SUPPORT. One lemma per field per named update of the state, each true by rfl. -/

namespace Sys2Proof.Machine

/-! ### Answering -/

@[simp] theorem State.emit_S (s : State) (e : Status) (r : List Byte) : (s.emit e r).S = s.S := rfl
@[simp] theorem State.emit_W (s : State) (e : Status) (r : List Byte) : (s.emit e r).W = s.W := rfl
@[simp] theorem State.emit_SEQ (s : State) (e : Status) (r : List Byte) : (s.emit e r).SEQ = s.SEQ := rfl
@[simp] theorem State.emit_commands (s : State) (e : Status) (r : List Byte) : (s.emit e r).commands = s.commands := rfl
@[simp] theorem State.emit_responses (s : State) (e : Status) (r : List Byte) : (s.emit e r).responses = s.responses ++ [statusCode e :: r] := rfl
@[simp] theorem State.emit_resetLine (s : State) (e : Status) (r : List Byte) : (s.emit e r).resetLine = s.resetLine := rfl
@[simp] theorem State.emit_transportDraws (s : State) (e : Status) (r : List Byte) : (s.emit e r).transportDraws = s.transportDraws := rfl

/-! ### Offering a frame and answering it -/

@[simp] theorem State.offer_S (s : State) (f : Frame) : (s.offer f).S = s.S := rfl
@[simp] theorem State.offer_W (s : State) (f : Frame) : (s.offer f).W = s.W := rfl
@[simp] theorem State.offer_SEQ (s : State) (f : Frame) : (s.offer f).SEQ = s.SEQ := rfl
@[simp] theorem State.offer_commands (s : State) (f : Frame) : (s.offer f).commands = f :: s.commands := rfl
@[simp] theorem State.offer_responses (s : State) (f : Frame) : (s.offer f).responses = s.responses := rfl
@[simp] theorem State.offer_resetLine (s : State) (f : Frame) : (s.offer f).resetLine = false := rfl
@[simp] theorem State.offer_transportDraws (s : State) (f : Frame) : (s.offer f).transportDraws = s.transportDraws := rfl

@[simp] theorem State.answered_S (s : State) (r : Frame) : (s.answered r).S = s.S := rfl
@[simp] theorem State.answered_W (s : State) (r : Frame) : (s.answered r).W = s.W := rfl
@[simp] theorem State.answered_SEQ (s : State) (r : Frame) : (s.answered r).SEQ = s.SEQ := rfl
@[simp] theorem State.answered_commands (s : State) (r : Frame) : (s.answered r).commands = s.commands := rfl
@[simp] theorem State.answered_responses (s : State) (r : Frame) : (s.answered r).responses = s.responses ++ [r] := rfl
@[simp] theorem State.answered_resetLine (s : State) (r : Frame) : (s.answered r).resetLine = false := rfl
@[simp] theorem State.answered_transportDraws (s : State) (r : Frame) : (s.answered r).transportDraws = s.transportDraws := rfl

/-! ### Reset -/

@[simp] theorem State.enterReset_S (s : State) : (s.enterReset).S = none := rfl
@[simp] theorem State.enterReset_W (s : State) : (s.enterReset).W = none := rfl
@[simp] theorem State.enterReset_SEQ (s : State) : (s.enterReset).SEQ = .idle := rfl
@[simp] theorem State.enterReset_commands (s : State) : (s.enterReset).commands = s.framesAfterReset := rfl
@[simp] theorem State.enterReset_responses (s : State) : (s.enterReset).responses = s.responses := rfl
@[simp] theorem State.enterReset_resetLine (s : State) : (s.enterReset).resetLine = s.resetLine := rfl
@[simp] theorem State.enterReset_transportDraws (s : State) : (s.enterReset).transportDraws = s.transportDraws + 1 := rfl

@[simp] theorem State.assertReset_S (s : State) : (s.assertReset).S = none := rfl
@[simp] theorem State.assertReset_W (s : State) : (s.assertReset).W = none := rfl
@[simp] theorem State.assertReset_SEQ (s : State) : (s.assertReset).SEQ = .idle := rfl
@[simp] theorem State.assertReset_commands (s : State) : (s.assertReset).commands = s.framesAfterReset := rfl
@[simp] theorem State.assertReset_responses (s : State) : (s.assertReset).responses = s.responses := rfl
@[simp] theorem State.assertReset_resetLine (s : State) : (s.assertReset).resetLine = true := rfl
@[simp] theorem State.assertReset_transportDraws (s : State) : (s.assertReset).transportDraws = s.transportDraws + 1 := rfl

@[simp] theorem State.releaseReset_S (s : State) : (s.releaseReset).S = none := rfl
@[simp] theorem State.releaseReset_W (s : State) : (s.releaseReset).W = none := rfl
@[simp] theorem State.releaseReset_SEQ (s : State) : (s.releaseReset).SEQ = .idle := rfl
@[simp] theorem State.releaseReset_commands (s : State) : (s.releaseReset).commands = s.framesAfterReset := rfl
@[simp] theorem State.releaseReset_responses (s : State) : (s.releaseReset).responses = s.responses := rfl
@[simp] theorem State.releaseReset_resetLine (s : State) : (s.releaseReset).resetLine = false := rfl
@[simp] theorem State.releaseReset_transportDraws (s : State) : (s.releaseReset).transportDraws = s.transportDraws + 1 := rfl

/-- A command cut short: its frame is gone, and the rest is the reset of what waits behind it. -/
theorem State.cutByReset_cons {s : State} {f : Frame} {rest : List Frame} (hr : s.resetLine = false)
    (hc : s.commands = f :: rest) : s.cutByReset = { s with commands := rest }.assertReset := by
  simp [State.cutByReset, State.takeFrame, hr, hc]

/-- Nothing is cut short where no command can be under way. -/
theorem State.cutByReset_idle {s : State} (h : s.resetLine = true ∨ s.commands = []) :
    s.cutByReset = s.assertReset := by
  obtain h | h := h <;> simp [State.cutByReset, State.takeFrame, h]

/-! ### The channels -/

@[simp] theorem State.sendFrame_S (s : State) (f : Frame) : (s.sendFrame f).S = s.S := rfl
@[simp] theorem State.sendFrame_W (s : State) (f : Frame) : (s.sendFrame f).W = s.W := rfl
@[simp] theorem State.sendFrame_SEQ (s : State) (f : Frame) : (s.sendFrame f).SEQ = s.SEQ := rfl
@[simp] theorem State.sendFrame_commands (s : State) (f : Frame) : (s.sendFrame f).commands = s.commands ++ [f] := rfl
@[simp] theorem State.sendFrame_responses (s : State) (f : Frame) : (s.sendFrame f).responses = s.responses := rfl
@[simp] theorem State.sendFrame_resetLine (s : State) (f : Frame) : (s.sendFrame f).resetLine = s.resetLine := rfl
@[simp] theorem State.sendFrame_transportDraws (s : State) (f : Frame) : (s.sendFrame f).transportDraws = s.transportDraws := rfl

@[simp] theorem State.withFetchWord_S (s : State) (nbits w : Nat) : (s.withFetchWord nbits w).S = s.S := rfl
@[simp] theorem State.withFetchWord_W (s : State) (nbits w : Nat) : (s.withFetchWord nbits w).W = s.W := rfl
@[simp] theorem State.withFetchWord_SEQ (s : State) (nbits w : Nat) : (s.withFetchWord nbits w).SEQ = s.SEQ := rfl
@[simp] theorem State.withFetchWord_commands (s : State) (nbits w : Nat) : (s.withFetchWord nbits w).commands = tableFrame nbits w :: s.commands := rfl
@[simp] theorem State.withFetchWord_responses (s : State) (nbits w : Nat) : (s.withFetchWord nbits w).responses = s.responses := rfl
@[simp] theorem State.withFetchWord_resetLine (s : State) (nbits w : Nat) : (s.withFetchWord nbits w).resetLine = false := rfl
@[simp] theorem State.withFetchWord_transportDraws (s : State) (nbits w : Nat) : (s.withFetchWord nbits w).transportDraws = s.transportDraws := rfl

/-! ### The state after reset -/

@[simp] theorem State.reset_S : State.reset.S = none := rfl
@[simp] theorem State.reset_W : State.reset.W = none := rfl
@[simp] theorem State.reset_SEQ : State.reset.SEQ = .idle := rfl
@[simp] theorem State.reset_commands : State.reset.commands = [] := rfl
@[simp] theorem State.reset_responses : State.reset.responses = [] := rfl
@[simp] theorem State.reset_resetLine : State.reset.resetLine = false := rfl
@[simp] theorem State.reset_transportDraws : State.reset.transportDraws = 0 := rfl

/-! ### The flags as views of the registers -/

@[simp] theorem State.keyValid_eq (s : State) : s.keyValid = s.W.isSome := rfl
@[simp] theorem State.stateValid_eq (s : State) : s.stateValid = s.S.isSome := rfl

/-- The four values of STATUS (spec/10_state.md R28). -/
theorem State.statusByte_eq (s : State) : s.statusByte =
    (if s.stateValid then 0x02 else 0x00) ||| (if s.keyValid then 0x01 else 0x00) := by
  unfold State.statusByte
  cases s.stateValid <;> cases s.keyValid <;> decide

end Sys2Proof.Machine
end

