-- ==== Sys2Proof/Laws/Ops.lean ====
section
/-! SUPPORT. One lemma per shared operation that says everything it can do, and what a step does with the
frame it takes. -/

namespace Sys2Proof.Machine

theorem respond_next {r : List Byte} {s t : State} :
    respond r s = .next t ↔ t = s.emit .ok r := by
  simp [respond, eq_comm]

theorem raise_next {e : Status} {s t : State} : raise e s = .next t ↔ t = s.emit e [] := by
  simp [raise, eq_comm]

@[simp] theorem withKey_some {s : State} {w : ExpandedKey} (h : s.W = some w) (k : ExpandedKey → Result) :
    withKey s k = k w := by simp [withKey, h]

@[simp] theorem withKey_none {s : State} (h : s.W = none) (k : ExpandedKey → Result) :
    withKey s k = raise .noKey s := by simp [withKey, h]

@[simp] theorem withState_some {s : State} {b : Block} (h : s.S = some b) (k : Block → Result) :
    withState s k = k b := by simp [withState, h]

@[simp] theorem withState_none {s : State} (h : s.S = none) (k : Block → Result) :
    withState s k = raise .noState s := by simp [withState, h]

/-- What a command that needs W can do. -/
theorem withKey_next {s t : State} {k : ExpandedKey → Result} (h : withKey s k = .next t) :
    (s.W = none ∧ t = s.emit .noKey []) ∨ ∃ w, s.W = some w ∧ k w = .next t := by
  cases hw : s.W with
  | none => exact .inl ⟨rfl, raise_next.mp (by rwa [withKey_none hw] at h)⟩
  | some w => exact .inr ⟨w, rfl, by rwa [withKey_some hw] at h⟩

/-- What a command that needs S can do. -/
theorem withState_next {s t : State} {k : Block → Result} (h : withState s k = .next t) :
    (s.S = none ∧ t = s.emit .noState []) ∨ ∃ b, s.S = some b ∧ k b = .next t := by
  cases hb : s.S with
  | none => exact .inl ⟨rfl, raise_next.mp (by rwa [withState_none hb] at h)⟩
  | some b => exact .inr ⟨b, rfl, by rwa [withState_some hb] at h⟩

/-- What a command that rewrites S can do. -/
theorem transformState_next {f : Block → Block} {s t : State} (h : transformState f s = .next t) :
    (s.S = none ∧ t = s.emit .noState []) ∨
      ∃ b, s.S = some b ∧ t = { s with S := some (f b) }.emit .ok [] := by
  obtain ⟨hb, rfl⟩ | ⟨b, hb, h⟩ := withState_next h
  · exact .inl ⟨hb, rfl⟩
  · exact .inr ⟨b, hb, respond_next.mp h⟩

theorem transformState_some {s : State} {b : Block} (h : s.S = some b) (f : Block → Block) :
    transformState f s = respond [] { s with S := some (f b) } := by
  simp [transformState, h]

theorem transformState_none {s : State} (h : s.S = none) (f : Block → Block) :
    transformState f s = raise .noState s := by
  simp [transformState, h]

theorem takeFrame_none {s : State} : s.takeFrame = none ↔ s.commands = [] := by
  unfold State.takeFrame
  cases s.commands <;> simp

theorem takeFrame_cons {s : State} {f : Frame} {rest : List Frame} (h : s.commands = f :: rest) :
    s.takeFrame = some (f, { s with commands := rest }) := by
  simp [State.takeFrame, h]

/-- The offered frame is the one taken, and taking it undoes the offer. -/
theorem takeFrame_offer (s : State) (f : Frame) :
    (s.offer f).takeFrame = some (f, { s with resetLine := false }) := rfl

/-- Keeping frames alters none, adds none and keeps their order. -/
theorem keepFrames_sublist (keep : Nat → Bool) (i : Nat) (fs : List Frame) :
    (keepFrames keep i fs).Sublist fs := by
  induction fs generalizing i with
  | nil => exact .slnil
  | cons f fs ih =>
    unfold keepFrames
    split
    · exact (ih _).cons_cons f
    · exact (ih _).cons f

/-- Only frames that were waiting survive a reset, and they keep their order. -/
theorem State.framesAfterReset_sublist (s : State) : s.framesAfterReset.Sublist s.commands :=
  keepFrames_sublist ..

/-- With no frame waiting, none waits after a reset. -/
theorem State.framesAfterReset_nil {s : State} (h : s.commands = []) : s.framesAfterReset = [] :=
  List.eq_nil_of_sublist_nil (h ▸ s.framesAfterReset_sublist)

/-- Every status code but OK's is other than 0x00, so a response's first byte tells success. -/
theorem statusCode_eq_zero {e : Status} : statusCode e = 0x00 ↔ e = .ok := by
  cases e <;> decide

end Sys2Proof.Machine
end

