-- ==== Sys2Proof/Laws/PerInstr.lean ====
section
/-! SUPPORT. Facts about every command as syntax, one lemma per constructor. -/

namespace Sys2Proof.Laws

/-- The encoding of a command is as long as its format says (spec/30_encoding.md R71, R74). -/
def FrameLength.Statement (i : Instr) : Prop := (encode i).length = i.op.row.payload + 1

theorem FrameLength.nop : FrameLength.Statement .nop := rfl

theorem FrameLength.status : FrameLength.Statement .status := rfl

theorem FrameLength.clear : FrameLength.Statement .clear := rfl

theorem FrameLength.xtime (a : Byte) : FrameLength.Statement (.xtime a) := rfl

theorem FrameLength.gfmul (a b : Byte) : FrameLength.Statement (.gfmul a b) := rfl

theorem FrameLength.subbyte (a : Byte) : FrameLength.Statement (.subbyte a) := rfl

theorem FrameLength.invsubbyte (a : Byte) : FrameLength.Statement (.invsubbyte a) := rfl

theorem FrameLength.expandkey (key : Block) : FrameLength.Statement (.expandkey key) := by
  simp [FrameLength.Statement, encode, Instr.payload, Machine.blockBytes, Instr.op, Op.row]

theorem FrameLength.rdrk (k : Byte) : FrameLength.Statement (.rdrk k) := rfl

theorem FrameLength.rotword (w : Word) : FrameLength.Statement (.rotword w) := rfl

theorem FrameLength.subword (w : Word) : FrameLength.Statement (.subword w) := rfl

theorem FrameLength.ldstate (block : Block) : FrameLength.Statement (.ldstate block) := by
  simp [FrameLength.Statement, encode, Instr.payload, Machine.blockBytes, Instr.op, Op.row]

theorem FrameLength.rdstate : FrameLength.Statement .rdstate := rfl

theorem FrameLength.subbytes : FrameLength.Statement .subbytes := rfl

theorem FrameLength.invsubbytes : FrameLength.Statement .invsubbytes := rfl

theorem FrameLength.shiftrows : FrameLength.Statement .shiftrows := rfl

theorem FrameLength.invshiftrows : FrameLength.Statement .invshiftrows := rfl

theorem FrameLength.mixcolumns : FrameLength.Statement .mixcolumns := rfl

theorem FrameLength.invmixcolumns : FrameLength.Statement .invmixcolumns := rfl

theorem FrameLength.addroundkey (k : BitVec 4) : FrameLength.Statement (.addroundkey k) := rfl

theorem FrameLength.encrypt (block : Block) : FrameLength.Statement (.encrypt block) := by
  simp [FrameLength.Statement, encode, Instr.payload, Machine.blockBytes, Instr.op, Op.row]

theorem FrameLength.decrypt (block : Block) : FrameLength.Statement (.decrypt block) := by
  simp [FrameLength.Statement, encode, Instr.payload, Machine.blockBytes, Instr.op, Op.row]

end Sys2Proof.Laws
end

