-- ==== Sys2Proof/Laws/RoundTransform.lean ====
section
/-! SUPPORT. What each function of the round transform puts in lane `i`, and the arithmetic of the grid. -/

namespace Sys2Proof.Machine

@[simp] theorem rowOf_gridIndex (r c : Fin 4) : rowOf (gridIndex r c) = r := by
  ext; simp [rowOf, gridIndex]

@[simp] theorem colOf_gridIndex (r c : Fin 4) : colOf (gridIndex r c) = c := by
  ext; simp [colOf, gridIndex]; omega

@[simp] theorem gridIndex_rowOf_colOf (i : Fin 16) : gridIndex (rowOf i) (colOf i) = i := by
  ext; simp [rowOf, colOf, gridIndex]; omega

/-- Two blocks are equal when they agree at every row and column. -/
theorem block_ext {a b : Block} (h : ∀ i : Fin 16, a[i] = b[i]) : a = b :=
  Vector.ext fun i hi => h ⟨i, hi⟩

theorem ofFn_getFin {n : Nat} {α : Type} (f : Fin n → α) (i : Fin n) : (Vector.ofFn f)[i] = f i := by
  simp

theorem addRoundKey_get (s : Block) (rk : RoundKey) (i : Fin 16) :
    (addRoundKey s rk)[i] = s[i] ^^^ byteOf rk[colOf i] (rowOf i) := ofFn_getFin _ i

theorem subBytes_get (s : Block) (i : Fin 16) : (subBytes s)[i] = sbox s[i] := ofFn_getFin _ i

theorem invSubBytes_get (s : Block) (i : Fin 16) : (invSubBytes s)[i] = isbox s[i] := ofFn_getFin _ i

theorem shiftRows_get (s : Block) (i : Fin 16) :
    (shiftRows s)[i] = s[gridIndex (rowOf i) (colOf i + rowOf i)] := ofFn_getFin _ i

theorem invShiftRows_get (s : Block) (i : Fin 16) :
    (invShiftRows s)[i] = s[gridIndex (rowOf i) (colOf i - rowOf i)] := ofFn_getFin _ i

theorem mixWith_get (m : Vector Byte 4) (s : Block) (i : Fin 16) :
    (mixWith m s)[i] =
      gmul m[0 - rowOf i] s[gridIndex 0 (colOf i)] ^^^ gmul m[1 - rowOf i] s[gridIndex 1 (colOf i)] ^^^
      gmul m[2 - rowOf i] s[gridIndex 2 (colOf i)] ^^^ gmul m[3 - rowOf i] s[gridIndex 3 (colOf i)] :=
  ofFn_getFin _ i

theorem roundKeyBytes_get (rk : RoundKey) (i : Fin 16) :
    (roundKeyBytes rk)[i] = byteOf rk[colOf i] (rowOf i) := ofFn_getFin _ i

theorem roundKey_get (w : ExpandedKey) (k : Fin 11) (c : Fin 4) :
    (roundKey w k)[c] = w[4 * k.val + c.val] := ofFn_getFin _ c

/-- The round key added is the round key as bytes, lane by lane (spec/44_round_transform.md R150). -/
theorem addRoundKey_get_bytes (s : Block) (rk : RoundKey) (i : Fin 16) :
    (addRoundKey s rk)[i] = s[i] ^^^ (roundKeyBytes rk)[i] := by
  rw [addRoundKey_get, roundKeyBytes_get]

theorem roundNumber_of_lt {k : Nat} (h : k < 11) : roundNumber k = some ⟨k, h⟩ := by
  simp [roundNumber, h]

theorem roundNumber_of_ge {k : Nat} (h : 11 ≤ k) : roundNumber k = none := by
  simp [roundNumber]; omega

theorem runPositions_add (w : ExpandedKey) (m n : Nat) (x : Sequencer × Block) :
    runPositions w (m + n) x = runPositions w n (runPositions w m x) := by
  induction m generalizing x with
  | zero => simp [runPositions]
  | succ m ih => rw [Nat.succ_add]; exact ih _

end Sys2Proof.Machine
end

