-- ==== Sys2Proof/Laws/Step.lean ====
section
/-! SUPPORT. What a step does with an offered frame, and everything a step can do. -/

namespace Sys2Proof.Machine

/-- An offered frame that decodes is run from the state with the frame taken. -/
theorem step_offer_ok {f : Frame} {i : Instr} (h : decode f = .ok i) (s : State) :
    step (s.offer f) = exec i { s with resetLine := false } := by
  simp only [step, takeFrame_offer, State.offer_resetLine, h]
  rfl

/-- An offered frame that the decoder rejects is answered with its status. -/
theorem step_offer_error {f : Frame} {e : Status} (h : decode f = .error e) (s : State) :
    step (s.offer f) = .next (s.answered [statusCode e]) := by
  simp only [step, takeFrame_offer, State.offer_resetLine, h]
  rfl

/-- Everything a step can do: reset, nothing, a rejected frame answered, or a command run. -/
theorem step_next {s t : State} (h : step s = .next t) :
    (s.resetLine = true ∧ t = s.enterReset) ∨
    (s.resetLine = false ∧ s.commands = [] ∧ t = s) ∨
    ∃ f rest, s.resetLine = false ∧ s.commands = f :: rest ∧
      ((∃ e, decode f = .error e ∧ t = { s with commands := rest }.emit e []) ∨
        ∃ i, decode f = .ok i ∧ exec i { s with commands := rest } = .next t) := by
  unfold step at h
  split at h
  · next hr => exact .inl ⟨hr, by cases h; rfl⟩
  · next hr =>
    rw [Bool.not_eq_true] at hr
    refine .inr ?_
    cases hc : s.commands with
    | nil =>
      rw [takeFrame_none.mpr hc] at h
      exact .inl ⟨hr, rfl, by cases h; rfl⟩
    | cons f rest =>
      rw [takeFrame_cons hc] at h
      refine .inr ⟨f, rest, hr, rfl, ?_⟩
      cases hd : decode f with
      | error e => exact .inl ⟨e, rfl, raise_next.mp (by simpa [hd] using h)⟩
      | ok i => exact .inr ⟨i, rfl, by simpa [hd] using h⟩

end Sys2Proof.Machine
end

