-- ==== Sys2Proof/Machine/Assembly.lean ====
section
/-! DEFINITION. How commands and responses are written (spec/30_encoding.md R82): the mnemonic, then the
payload as unbroken hex digits, ADDROUNDKEY's round number in decimal; a response as the status name,
then the result bytes as hex. -/

namespace Sys2Proof.Machine

/-- The mnemonics of the opcode map (R76). -/
def mnemonic : Op → String
  | .nop => "NOP"
  | .status => "STATUS"
  | .clear => "CLEAR"
  | .xtime => "XTIME"
  | .gfmul => "GFMUL"
  | .subbyte => "SUBBYTE"
  | .invsubbyte => "INVSUBBYTE"
  | .expandkey => "EXPANDKEY"
  | .rdrk => "RDRK"
  | .rotword => "ROTWORD"
  | .subword => "SUBWORD"
  | .ldstate => "LDSTATE"
  | .rdstate => "RDSTATE"
  | .subbytes => "SUBBYTES"
  | .invsubbytes => "INVSUBBYTES"
  | .shiftrows => "SHIFTROWS"
  | .invshiftrows => "INVSHIFTROWS"
  | .mixcolumns => "MIXCOLUMNS"
  | .invmixcolumns => "INVMIXCOLUMNS"
  | .addroundkey => "ADDROUNDKEY"
  | .encrypt => "ENCRYPT"
  | .decrypt => "DECRYPT"

/-- The names of the status codes (spec/60_exceptions.md R220). -/
def statusName : Status → String
  | .ok => "OK"
  | .invalidKeyLength => "INVALID_KEY_LENGTH"
  | .invalidBlockLength => "INVALID_BLOCK_LENGTH"
  | .invalidOperandLength => "INVALID_OPERAND_LENGTH"
  | .noKey => "NO_KEY"
  | .noState => "NO_STATE"
  | .illegalOpcode => "ILLEGAL_OPCODE"
  | .invalidRoundIndex => "INVALID_ROUND_INDEX"

/-- One digit, 0 to F. -/
def hexDigit (d : BitVec 4) : Char :=
  if d < 10#4 then Char.ofNat (48 + d.toNat) else Char.ofNat (55 + d.toNat)

/-- Bytes as hex digits, two per byte, in order. -/
def hexBytes (bytes : List Byte) : List Char :=
  bytes.flatMap fun b => [hexDigit (b.extractLsb' 4 4), hexDigit (b.extractLsb' 0 4)]

/-- A round number, 0 to 15, in decimal. -/
def decimalRound (k : BitVec 4) : List Char :=
  if k < 10#4 then [hexDigit k] else ['1', hexDigit (k - 10#4)]

/-- The operand field of a written command: nothing where there is no operand. -/
def writtenOperand (i : Instr) : List Char :=
  match i with
  | .addroundkey k => ' ' :: decimalRound k
  | _ => if i.payload.isEmpty then [] else ' ' :: hexBytes i.payload

/-- A command as R82 writes it. -/
def writeCommand (i : Instr) : String := mnemonic i.op ++ String.ofList (writtenOperand i)

/-- A response as R82 writes it after `->`. -/
def writeResponse (status : Status) (result : List Byte) : String :=
  statusName status ++ String.ofList (if result.isEmpty then [] else ' ' :: hexBytes result)

end Sys2Proof.Machine
end

