-- ==== Sys2Proof/Tests/Slice0.lean ====
section
/-! SUPPORT. The model's own tests. Expected values are the spec's: the frames of spec/30_encoding.md R76
and R82, the examples of the command rules, and spec/95_test_vectors.md (the vector is named at each
test). Then one witness per statement that has hypotheses. -/

namespace Sys2Proof.Tests

open Sys2Proof Sys2Proof.Machine

/-! ### Helpers -/

/-- The state a result ends in. -/
def stateOf : Result → Option State
  | .next t => some t
  | .fault _ => none
  | .refused _ => none

/-- The last response of a result. -/
def answerOf (r : Result) : Option Frame := (stateOf r).bind fun t => t.responses.getLast?

/-- S after a result. -/
def blockOf (r : Result) : Option Block := (stateOf r).bind fun t => t.S

/-- The bytes 00 01 … 0F. -/
def upTo15 : Block := #v[0, 1, 2, 3, 4, 5, 6, 7, 8, 9, 10, 11, 12, 13, 14, 15]

/-- The block 00112233445566778899AABBCCDDEEFF. -/
def block1 : Block :=
  #v[0x00, 0x11, 0x22, 0x33, 0x44, 0x55, 0x66, 0x77, 0x88, 0x99, 0xAA, 0xBB, 0xCC, 0xDD, 0xEE, 0xFF]

/-- The block 69C4E0D86A7B0430D8CDB78070B4C55A, its encryption under the key `upTo15` (V31). -/
def cipher1 : Block :=
  #v[0x69, 0xC4, 0xE0, 0xD8, 0x6A, 0x7B, 0x04, 0x30, 0xD8, 0xCD, 0xB7, 0x80, 0x70, 0xB4, 0xC5, 0x5A]

/-- The key 2B7E151628AED2A6ABF7158809CF4F3C. -/
def key2 : Block :=
  #v[0x2B, 0x7E, 0x15, 0x16, 0x28, 0xAE, 0xD2, 0xA6, 0xAB, 0xF7, 0x15, 0x88, 0x09, 0xCF, 0x4F, 0x3C]

/-- A fresh core with `b` in S. -/
def withBlock (b : Block) : State := { State.reset with S := some b }

/-- A fresh core with the expanded key of `k` in W. -/
def withKeyOf (k : Block) : State := { State.reset with W := some (expandKey k) }

/-- A fresh core with a word file in W that is cheap to read: `W[i] = i`. -/
def withCountingW : State := { State.reset with W := some (Vector.ofFn fun i => BitVec.ofNat 32 i.val) }

/-! ### The well-formedness check -/

theorem test_wellFormed_round_10 : (Instr.addroundkey 10).wellFormed = true := by decide
theorem test_illFormed_round_11 : (Instr.addroundkey 11).wellFormed = false := by decide
theorem test_illFormed_round_15 : (Instr.addroundkey 15).wellFormed = false := by decide

/-! ### Decoding: one frame per command, written from R76 and R77 -/

theorem test_decode_nop : decode [0b00000000] = .ok .nop := rfl
theorem test_decode_status : decode [0b00000001] = .ok .status := rfl
theorem test_decode_clear : decode [0b00000010] = .ok .clear := rfl
theorem test_decode_xtime : decode [0b00010000, 0x57] = .ok (.xtime 0x57) := rfl
theorem test_decode_gfmul : decode [0b00010001, 0x57, 0x83] = .ok (.gfmul 0x57 0x83) := rfl
theorem test_decode_subbyte : decode [0b00100000, 0x53] = .ok (.subbyte 0x53) := rfl
theorem test_decode_invsubbyte : decode [0b00100001, 0xED] = .ok (.invsubbyte 0xED) := rfl
theorem test_decode_expandkey :
    decode [0b00110000, 0, 1, 2, 3, 4, 5, 6, 7, 8, 9, 10, 11, 12, 13, 14, 15] = .ok (.expandkey upTo15) := rfl
theorem test_decode_rdrk : decode [0b00110001, 0x0A] = .ok (.rdrk 0x0A) := rfl
theorem test_decode_rotword : decode [0b00110010, 0x09, 0xCF, 0x4F, 0x3C] = .ok (.rotword 0x09CF4F3C) := rfl
theorem test_decode_subword : decode [0b00110011, 0xCF, 0x4F, 0x3C, 0x09] = .ok (.subword 0xCF4F3C09) := rfl
theorem test_decode_ldstate :
    decode [0b01000000, 0, 1, 2, 3, 4, 5, 6, 7, 8, 9, 10, 11, 12, 13, 14, 15] = .ok (.ldstate upTo15) := rfl
theorem test_decode_rdstate : decode [0b01000001] = .ok .rdstate := rfl
theorem test_decode_subbytes : decode [0b01000010] = .ok .subbytes := rfl
theorem test_decode_invsubbytes : decode [0b01000011] = .ok .invsubbytes := rfl
theorem test_decode_shiftrows : decode [0b01000100] = .ok .shiftrows := rfl
theorem test_decode_invshiftrows : decode [0b01000101] = .ok .invshiftrows := rfl
theorem test_decode_mixcolumns : decode [0b01000110] = .ok .mixcolumns := rfl
theorem test_decode_invmixcolumns : decode [0b01000111] = .ok .invmixcolumns := rfl
theorem test_decode_addroundkey : decode [0b01011010] = .ok (.addroundkey 10) := rfl
theorem test_decode_encrypt :
    decode [0b01100000, 0, 1, 2, 3, 4, 5, 6, 7, 8, 9, 10, 11, 12, 13, 14, 15] = .ok (.encrypt upTo15) := rfl
theorem test_decode_decrypt :
    decode [0b01100001, 0, 1, 2, 3, 4, 5, 6, 7, 8, 9, 10, 11, 12, 13, 14, 15] = .ok (.decrypt upTo15) := rfl

/-- V41: an empty frame, an illegal opcode with a payload, and an illegal opcode before its length. -/
theorem test_decode_illegal :
    decode [] = .error .illegalOpcode ∧ decode [0xFF, 0, 0] = .error .illegalOpcode ∧
    decode [0x5B] = .error .illegalOpcode ∧ decode [0x5B, 0x00] = .error .illegalOpcode :=
  ⟨rfl, rfl, rfl, rfl⟩

/-- V2, V29b, V40: the three length statuses. -/
theorem test_decode_lengths :
    decode [0x30] = .error .invalidKeyLength ∧ decode [0x40, 0x00] = .error .invalidBlockLength ∧
    decode [0x02, 0x00] = .error .invalidOperandLength := ⟨rfl, rfl, rfl⟩

/-- A table word of eight bits stands for the frame with a payload of zeros. -/
theorem test_tableWord_expandkey :
    decodeTableWord 8 0x30 = some (.expandkey #v[0, 0, 0, 0, 0, 0, 0, 0, 0, 0, 0, 0, 0, 0, 0, 0]) := by decide

/-- The payload bytes count on from the opcode byte: bits 15..8 are `P[0]`. -/
theorem test_tableWord_gfmul : decodeTableWord 24 0x835711 = some (.gfmul 0x57 0x83) := by decide

theorem test_tableWord_illegal : decodeTableWord 8 0x5B = none := by decide

/-- R82's written forms. -/
theorem test_written_forms : writeCommand (.gfmul 0x57 0x83) = "GFMUL 5783" ∧
    writeCommand (.addroundkey 10) = "ADDROUNDKEY 10" ∧ writeResponse .ok [0xC1] = "OK C1" := by decide

/-! ### The commands -/

/-- R190's example, through a step. -/
theorem test_step_nop : answerOf (step (State.reset.withFetchWord 8 0x00)) = some [0x00] := by decide

/-- V40: STATUS after LDSTATE alone is 02. -/
theorem test_status_state_only : answerOf (exec .status (withBlock upTo15)) = some [0x00, 0x02] := by decide

/-- V40: STATUS with a key alone is 01. -/
theorem test_status_key_only : answerOf (exec .status withCountingW) = some [0x00, 0x01] := by decide

/-- V40: CLEAR leaves neither flag. -/
theorem test_clear : (stateOf (exec .clear { withCountingW with S := some upTo15 })).map
    (fun t => (t.keyValid, t.stateValid)) = some (false, false) := by decide

/-- V10: the smallest input with reduction. -/
theorem test_xtime_80 : answerOf (exec (.xtime 0x80) State.reset) = some [0x00, 0x1B] := by decide
/-- V10: the largest input without reduction. -/
theorem test_xtime_7F : answerOf (exec (.xtime 0x7F) State.reset) = some [0x00, 0xFE] := by decide
/-- V11: the worked example. -/
theorem test_gfmul_57_83 : answerOf (exec (.gfmul 0x57 0x83) State.reset) = some [0x00, 0xC1] := by decide
/-- V11: all eight doublings used. -/
theorem test_gfmul_80_80 : answerOf (exec (.gfmul 0x80 0x80) State.reset) = some [0x00, 0x9A] := by decide
/-- V15. -/
theorem test_subbyte_53 : answerOf (exec (.subbyte 0x53) State.reset) = some [0x00, 0xED] := by decide
/-- V15. -/
theorem test_invsubbyte_ED : answerOf (exec (.invsubbyte 0xED) State.reset) = some [0x00, 0x53] := by decide

/-- V22: words 3, 4 and 43 of the key 2B7E…. -/
theorem test_expandkey_words :
    (stateOf (exec (.expandkey key2) State.reset)).bind (fun t => t.W.map fun w => (w[3], w[4], w[43])) =
      some (0x09CF4F3C, 0xA0FAFE17, 0xB6630CA6) := by decide +kernel

/-- V25: the index is checked before the key. -/
theorem test_rdrk_order : answerOf (exec (.rdrk 11) State.reset) = some [0x07] ∧
    answerOf (exec (.rdrk 10) State.reset) = some [0x04] := by decide

/-- V22: round key 1 of the key 2B7E…. -/
theorem test_rdrk_1 : answerOf (exec (.rdrk 1) (withKeyOf key2)) =
    some [0x00, 0xA0, 0xFA, 0xFE, 0x17, 0x88, 0x54, 0x2C, 0xB1, 0x23, 0xA3, 0x39, 0x39, 0x2A, 0x6C, 0x76,
      0x05] := by decide +kernel

/-- V20. -/
theorem test_rotword : answerOf (exec (.rotword 0x80000001) State.reset) =
    some [0x00, 0x00, 0x00, 0x01, 0x80] := by decide
/-- V20. -/
theorem test_subword : answerOf (exec (.subword 0x01020304) State.reset) =
    some [0x00, 0x7C, 0x77, 0x7B, 0xF2] := by decide

/-- R140's example: S[1] is row 1, column 0 and S[4] row 0, column 1. -/
theorem test_ldstate : (blockOf (exec (.ldstate block1) State.reset)).map
    (fun b => (b[gridIndex 1 0], b[gridIndex 0 1])) = some (0x11, 0x44) := by decide

/-- R141: NO_STATE on a fresh core. -/
theorem test_rdstate_fresh : answerOf (exec .rdstate State.reset) = some [0x05] := by decide

/-- V26. -/
theorem test_subbytes : blockOf (exec .subbytes (withBlock upTo15)) =
    some #v[0x63, 0x7C, 0x77, 0x7B, 0xF2, 0x6B, 0x6F, 0xC5, 0x30, 0x01, 0x67, 0x2B, 0xFE, 0xD7, 0xAB,
      0x76] := by decide +kernel
/-- V26. -/
theorem test_invsubbytes : blockOf (exec .invsubbytes (withBlock upTo15)) =
    some #v[0x52, 0x09, 0x6A, 0xD5, 0x30, 0x36, 0xA5, 0x38, 0xBF, 0x40, 0xA3, 0x9E, 0x81, 0xF3, 0xD7,
      0xFB] := by decide +kernel
/-- V27. -/
theorem test_shiftrows : blockOf (exec .shiftrows (withBlock upTo15)) =
    some #v[0x00, 0x05, 0x0A, 0x0F, 0x04, 0x09, 0x0E, 0x03, 0x08, 0x0D, 0x02, 0x07, 0x0C, 0x01, 0x06,
      0x0B] := by decide +kernel
/-- V27. -/
theorem test_invshiftrows : blockOf (exec .invshiftrows (withBlock upTo15)) =
    some #v[0x00, 0x0D, 0x0A, 0x07, 0x04, 0x01, 0x0E, 0x0B, 0x08, 0x05, 0x02, 0x0F, 0x0C, 0x09, 0x06,
      0x03] := by decide +kernel

/-- The example state of R146: two mixed columns and two that stay. -/
def mixBefore : Block :=
  #v[0xDB, 0x13, 0x53, 0x45, 0xF2, 0x0A, 0x22, 0x5C, 0x01, 0x01, 0x01, 0x01, 0xC6, 0xC6, 0xC6, 0xC6]

/-- The example result of R146. -/
def mixAfter : Block :=
  #v[0x8E, 0x4D, 0xA1, 0xBC, 0x9F, 0xDC, 0x58, 0x9D, 0x01, 0x01, 0x01, 0x01, 0xC6, 0xC6, 0xC6, 0xC6]

theorem test_mixcolumns : blockOf (exec .mixcolumns (withBlock mixBefore)) = some mixAfter := by
  decide +kernel
/-- R147's example. -/
theorem test_invmixcolumns : blockOf (exec .invmixcolumns (withBlock mixAfter)) = some mixBefore := by
  decide +kernel

/-- V29, line 2: byte 0 of W[4] meets S[0], byte 1 meets S[1], byte 0 of W[5] meets S[4]. -/
theorem test_addroundkey_1 :
    (blockOf (exec (.addroundkey 1) { withKeyOf upTo15 with S := some (Vector.ofFn fun _ => 0) })).map
      (fun b => (b[0], b[1], b[4])) = some (0xD6, 0xAA, 0xD2) := by decide +kernel

/-- V29b: NO_KEY comes before NO_STATE. -/
theorem test_addroundkey_order : answerOf (exec (.addroundkey 5) State.reset) = some [0x04] ∧
    answerOf (exec (.addroundkey 5) withCountingW) = some [0x05] := by decide

/-- V31, an end-to-end vector that tells byte orders apart. -/
theorem test_encrypt : answerOf (exec (.encrypt block1) (withKeyOf upTo15)) =
    some [0x00, 0x69, 0xC4, 0xE0, 0xD8, 0x6A, 0x7B, 0x04, 0x30, 0xD8, 0xCD, 0xB7, 0x80, 0x70, 0xB4, 0xC5,
      0x5A] := by decide +kernel

/-- V34. -/
theorem test_decrypt : answerOf (exec (.decrypt cipher1) (withKeyOf upTo15)) =
    some [0x00, 0x00, 0x11, 0x22, 0x33, 0x44, 0x55, 0x66, 0x77, 0x88, 0x99, 0xAA, 0xBB, 0xCC, 0xDD, 0xEE,
      0xFF] := by decide +kernel

/-- R171: ENCRYPT discards a state loaded before it, and SEQ is back at IDLE. -/
theorem test_encrypt_discards :
    (stateOf (exec (.encrypt upTo15) { withCountingW with S := some upTo15 })).map
      (fun t => (t.stateValid, t.keyValid, t.SEQ)) = some (false, true, .idle) := by decide

/-- R174: a DECRYPT that fails leaves S as it was. -/
theorem test_decrypt_no_key : exec (.decrypt upTo15) (withBlock block1) =
    .next { withBlock block1 with responses := [[0x04]] } := rfl

/-! ### The step and the host's moves -/

/-- R237: with no frame waiting the core stays as it is. -/
theorem test_idle_step : stateOf (step State.reset) = some State.reset := by decide

/-- R250: with reset asserted a waiting frame is not answered. -/
theorem test_reset_asserted :
    (stateOf (step { withBlock upTo15 with resetLine := true, commands := [[0x00]] })).map
      (fun t => (t.responses, t.S)) = some ([], none) := by decide

/-- R237, R250: after a reset with nothing sent, nothing waits and nothing is answered. -/
theorem test_nothing_sent_nothing_answered :
    (stateOf (step (withBlock upTo15).assertReset.releaseReset)).map (fun t => (t.commands, t.responses)) =
      some ([], []) := by decide

/-- R250: a command cut short by reset is not answered, then or later. -/
theorem test_cut_command_unanswered :
    (stateOf (step (State.reset.sendFrame [0x00]).cutByReset.releaseReset)).map (fun t => t.responses) =
      some [] := by decide

/-- R205: with reset asserted the wrapper's first command gets no response. -/
theorem test_wrapper_no_response :
    (encryptEcb [] (List.replicate 16 0) { State.reset with resetLine := true }).1 =
      .error .unexpectedResponse := rfl

/-- R203: a pending OK response that carries no block is not taken for an encrypted block. -/
theorem test_wrapper_short_block :
    (sendBlocks .encrypt [blockBytes upTo15] { withCountingW with responses := [[0x00]] }).1 =
      .error .unexpectedResponse := rfl

/-- R85: frames wait in order and are taken one a step. -/
theorem test_frames_in_order :
    (stateOf (step ((State.reset.sendFrame [0x03]).sendFrame [0x00]))).map
      (fun t => (t.commands, t.responses)) = some ([[0x00]], [[0x06]]) := by decide

/-! ### The host wrapper -/

/-- V50. -/
theorem test_pad : pad [0x41, 0x42, 0x43] =
    [0x41, 0x42, 0x43, 13, 13, 13, 13, 13, 13, 13, 13, 13, 13, 13, 13, 13] := by decide

/-- V51: claims three bytes, but the third from the end differs. -/
theorem test_unpad_inconsistent :
    unpad [0, 0, 0, 0, 0, 0, 0, 0, 0, 0, 0, 0, 0, 2, 3, 3] = .error .paddingError := rfl

/-! ### Witnesses: every statement with hypotheses has an input that meets them all -/

/-- A good state with a key, a state, and a frame waiting. -/
def busy : State := { withCountingW with S := some upTo15, commands := [[0x00]] }

theorem witness_ResetAndClearHoldNothing : State.reset.SEQ = .idle := rfl

theorem witness_StatusReportsTheTwoFlags : 2 ≤ 2 ∧ 2 ≤ 7 ∧ State.reset.statusByte.getLsbD 7 = false := by
  decide

/-- V2: lengths 0, 15 and 17. -/
theorem witness_ExpandkeyLoadsTheExpandedKey : ([] : List Byte).length ≠ 16 ∧
    (List.replicate 15 (0 : Byte)).length ≠ 16 ∧ (List.replicate 17 (0 : Byte)).length ≠ 16 := by decide

theorem witness_GmulFieldLaws : (1 : Byte) ≠ 0 ∧ gmul 0 1 = 0 := by decide

theorem witness_SboxIsAffineOfFieldInverse : gmul 0x53 0xCA = 1 := by decide

theorem witness_ExpandKeyFollowsTheRecurrence : (4 ≤ 4 ∧ 4 < 44) ∧ (4 ≤ 43 ∧ 43 < 44) := by decide

theorem witness_RoundKeysDetermineEachOther : scheduleHolds (expandKey upTo15) ∧
    roundKey (expandKey upTo15) 0 = roundKey (expandKey upTo15) 0 ∧
    roundKey (expandKey upTo15) 10 = roundKey (expandKey upTo15) 10 := by
  refine ⟨?_, rfl, rfl⟩
  unfold scheduleHolds
  decide +kernel

theorem witness_RdrkReadsARoundKey :
    withCountingW.W = some (Vector.ofFn fun i => BitVec.ofNat 32 i.val) ∧ (0x0A : Byte).toNat < 11 := by
  decide

theorem witness_WordCommandsRotateAndSubstitute :
    ([0, 0, 0] : List Byte).length ≠ 4 ∧ ([0, 0, 0, 0, 0] : List Byte).length ≠ 4 := by decide

theorem witness_LdstateAndRdstateMoveTheBlock :
    ([] : List Byte).length ≠ 16 ∧ (withBlock upTo15).S = some upTo15 := by decide

theorem witness_SubbytesSubstitutesEveryLane : (withBlock upTo15).S = some upTo15 := by decide
theorem witness_ShiftrowsPermutesTheLanes : (withBlock upTo15).S = some upTo15 := by decide
theorem witness_MixcolumnsMultipliesEveryColumn : (withBlock mixBefore).S = some mixBefore := by decide

theorem witness_AddroundkeyXorsTheRoundKey : (11 ≤ 11 ∧ 11 ≤ 15) ∧ (11 ≤ 15 ∧ 15 ≤ 15) ∧
    busy.W = some (Vector.ofFn fun i => BitVec.ofNat 32 i.val) ∧ busy.S = some upTo15 := by decide

theorem witness_EncryptRunsTheForwardRounds : (List.replicate 15 (0 : Byte)).length ≠ 16 ∧
    busy.W = some (Vector.ofFn fun i => BitVec.ofNat 32 i.val) := by decide
theorem witness_DecryptRunsTheInverseRounds : (List.replicate 17 (0 : Byte)).length ≠ 16 ∧
    busy.W = some (Vector.ofFn fun i => BitVec.ofNat 32 i.val) := by decide
theorem witness_EncryptAndDecryptAreInverse :
    withCountingW.W = some (Vector.ofFn fun i => BitVec.ofNat 32 i.val) ∧
    busy.W = some (Vector.ofFn fun i => BitVec.ofNat 32 i.val) := by decide
theorem witness_StepSequencesComputeTheCipher :
    withCountingW.W = some (Vector.ofFn fun i => BitVec.ofNat 32 i.val) := by decide
theorem witness_BlockAnswerDependsOnPayloadAndKeyAlone :
    (Instr.encrypt upTo15 = .encrypt upTo15 ∨ Instr.encrypt upTo15 = .decrypt upTo15) ∧
    (Instr.decrypt upTo15 = .encrypt upTo15 ∨ Instr.decrypt upTo15 = .decrypt upTo15) := by decide

/-- A good state that holds a key, and the step of EXPANDKEY from reset. -/
theorem witness_StepKeepsTheGoodState :
    (withKeyOf upTo15).Inv ∧ (∃ t, step (withKeyOf upTo15) = .next t) ∧
    ((State.reset.withFetchWord 8 0x30).Inv ∧ ∃ t, step (State.reset.withFetchWord 8 0x30) = .next t) := by
  refine ⟨⟨rfl, fun w hw => ?_⟩, ⟨_, rfl⟩, ⟨rfl, fun w hw => ?_⟩, ⟨_, rfl⟩⟩
  · obtain rfl := Option.some.inj hw
    exact witness_RoundKeysDetermineEachOther.1
  · cases hw

/-- Frame `5B`, rejected, and frame `42` on a fresh core, NO_STATE (V29b). -/
theorem witness_FailedCommandHasNoEffect :
    (∃ t, step (State.reset.sendFrame [0x5B]) = .next t ∧ t.responses = [] ++ [[0x06]] ∧
      ([0x06] : Frame).head? ≠ some 0x00) ∧
    ∃ t, step (State.reset.sendFrame [0x42]) = .next t ∧ t.responses = [] ++ [[0x05]] ∧
      ([0x05] : Frame).head? ≠ some 0x00 :=
  ⟨⟨_, rfl, rfl, by decide⟩, ⟨_, rfl, rfl, by decide⟩⟩

theorem witness_ResponsesHaveTheirFormat : (∃ t, exec .nop State.reset = .next t) ∧
    (∀ r ∈ State.reset.responses, legalResponse r) ∧ ∃ t, step busy = .next t :=
  ⟨⟨_, rfl⟩, (by intro r hr; simp [State.reset] at hr), ⟨_, rfl⟩⟩

theorem witness_OneResponsePerFrameAndNoOther :
    (busy.resetLine = false ∧ busy.commands = [0x00] :: []) ∧
    (State.reset.resetLine = false ∧ State.reset.commands = []) ∧
    State.reset.assertReset.resetLine = true := ⟨⟨rfl, rfl⟩, ⟨rfl, rfl⟩, rfl⟩

theorem witness_ResetInputGivesTheResetState : busy.assertReset.resetLine = true ∧
    busy.resetLine = false ∧ busy.commands = [0x00] :: [] := ⟨rfl, rfl, rfl⟩

/-- A command that writes W, one that writes S, and one that moves SEQ. -/
theorem witness_OnlyTheNamedCommandsWriteEachRegister :
    (∃ t, exec (.expandkey upTo15) State.reset = .next t ∧ t.W ≠ State.reset.W ∧
      State.reset.W = none ∧ t.W ≠ none) ∧
    (∃ t, exec (.ldstate upTo15) State.reset = .next t ∧ t.S ≠ State.reset.S ∧
      State.reset.S = none ∧ t.S ≠ none) ∧
    ∃ t, exec (.encrypt upTo15) { busy with SEQ := .enc 3 } = .next t ∧ t.SEQ ≠ .enc 3 :=
  ⟨⟨_, rfl, by simp [State.emit, State.reset], rfl, by simp [State.emit]⟩,
    ⟨_, rfl, by simp [State.emit, State.reset], rfl, by simp [State.emit]⟩, ⟨_, rfl, by decide⟩⟩

/-- A command that succeeds and one that fails. -/
theorem witness_WhatEachEventLeavesValid :
    (∃ t, exec (.ldstate upTo15) State.reset = .next t ∧ t.responses = [] ++ [[0x00]] ∧
      ([0x00] : Frame).head? = some 0x00) ∧
    ∃ t, exec .subbytes State.reset = .next t ∧ t.responses = [] ++ [[0x05]] ∧
      ([0x05] : Frame).head? ≠ some 0x00 :=
  ⟨⟨_, rfl, rfl, rfl⟩, ⟨_, rfl, rfl, by decide⟩⟩

theorem witness_MissingKeyOrStateIsAnswered : State.reset.W = none ∧ State.reset.S = none ∧
    Instr.subbytes ∈ ([.rdstate, .subbytes, .invsubbytes, .shiftrows, .invshiftrows, .mixcolumns,
      .invmixcolumns] : List Instr) ∧
    withCountingW.W ≠ none ∧ withCountingW.S = none := by decide

theorem witness_KeyStaysReadable :
    (∀ i ∈ ([.nop, .ldstate upTo15] : List Instr), i ≠ .clear ∧ ∀ key', i ≠ .expandkey key') ∧
    ∃ t, execAll [.expandkey upTo15, .nop, .ldstate upTo15] State.reset = .next t := by
  refine ⟨?_, ⟨_, rfl⟩⟩
  intro i hi
  simp only [List.mem_cons, List.not_mem_nil, or_false] at hi
  rcases hi with rfl | rfl <;> exact ⟨by decide, fun _ => by simp⟩

theorem witness_StepRunsTheDecodedCommand :
    busy.resetLine = false ∧ busy.commands = [0x00] :: [] ∧ decode [0x00] = .ok .nop ∧
    decodeTableWord 8 0x00 = some .nop := ⟨rfl, rfl, rfl, by decide⟩

theorem witness_StepAnswersARejectedFrame :
    (State.reset.sendFrame [0x5F]).resetLine = false ∧
    (State.reset.sendFrame [0x5F]).commands = [0x5F] :: [] ∧ decode [0x5F] = .error .illegalOpcode :=
  ⟨rfl, rfl, rfl⟩

/-- The illegal opcodes at the ends of the gaps. -/
theorem witness_IllegalOpcodesAreRejected :
    ∀ op ∈ ([0x03, 0x0F, 0x12, 0x22, 0x34, 0x48, 0x4F, 0x5B, 0x5F, 0x62, 0x70, 0xFF] : List Byte),
      op ∉ ([0x00, 0x01, 0x02, 0x10, 0x11, 0x20, 0x21, 0x30, 0x31, 0x32, 0x33,
        0x40, 0x41, 0x42, 0x43, 0x44, 0x45, 0x46, 0x47,
        0x50, 0x51, 0x52, 0x53, 0x54, 0x55, 0x56, 0x57, 0x58, 0x59, 0x5A, 0x60, 0x61] : List Byte) := by
  decide

/-- One length below, at and above each of the accepted lengths. -/
theorem witness_PayloadLengthIsExact :
    (0x5A : Byte) ∈ ([0x50, 0x5A] : List Byte) ∧ ∀ n ∈ ([0, 1, 2, 4, 16] : List Nat),
      (List.replicate n (0 : Byte)).length = n ∧ (List.replicate (n - 1) (0 : Byte)).length ≠ n + 1 ∧
      (List.replicate (n + 1) (0 : Byte)).length ≠ n := by decide

/-- R224's examples: `5B`, `60 00`, `31 0B` and `50` after reset, and `50` with a key alone. -/
theorem witness_FirstErrorIsAnswered :
    decode [0x5B] = .error .illegalOpcode ∧ decode [0x60, 0x00] = .error .invalidBlockLength ∧
    (decode [0x31, 0x0B] = .ok (.rdrk 11) ∧
      exec (.rdrk 11) State.reset = .next { State.reset with responses := [] ++ [[0x07]] }) ∧
    (decode [0x50] = .ok (.addroundkey 0) ∧
      exec (.addroundkey 0) State.reset = .next { State.reset with responses := [] ++ [[0x04]] }) ∧
    exec (.addroundkey 0) withCountingW = .next { withCountingW with responses := [] ++ [[0x05]] } :=
  ⟨rfl, rfl, ⟨rfl, rfl⟩, ⟨rfl, rfl⟩, rfl⟩

theorem witness_DecodeEncodeRoundTrip : (Instr.addroundkey 0).wellFormed = true ∧
    (Instr.addroundkey 10).wellFormed = true ∧ (Instr.gfmul 0xFF 0).wellFormed = true := by decide

theorem witness_EncodeDecodeRoundTrip : decode [0x31, 0xFF] = .ok (.rdrk 0xFF) := rfl

theorem witness_UnpadAcceptsExactlyPaddedData :
    unpad (List.replicate 16 0x10) = .ok [] ∧ unpad [] = .error .paddingError := ⟨rfl, rfl⟩

theorem witness_EcbRoundTrip : (List.replicate 16 (0 : Byte)).length = 16 ∧ State.reset.commands = [] ∧
    State.reset.responses = [] ∧ State.reset.resetLine = false := by decide

/-- Lengths 0, 15, 16 and 17 of key and ciphertext (V55). -/
theorem witness_EcbRejectsWrongLengths : (List.replicate 15 (0 : Byte)).length ≠ 16 ∧
    (List.replicate 17 (0 : Byte)).length % 16 ≠ 0 ∧ ([] : List Byte).length = 0 ∧
    (List.replicate 16 (0 : Byte)).length ≠ 0 ∧ (List.replicate 16 (0 : Byte)).length % 16 = 0 := by decide

end Sys2Proof.Tests
end

section
/-! ### What one command can do to the state -/

namespace Sys2Proof

/-- The commands that answer and write no register (spec/10_state.md R31). -/
def Instr.onlyAnswers : Instr → Bool
  | .nop | .status | .xtime _ | .gfmul _ _ | .subbyte _ | .invsubbyte _ => true
  | .rdrk _ | .rotword _ | .subword _ | .rdstate => true
  | .clear | .expandkey _ | .ldstate _ | .addroundkey _ | .encrypt _ | .decrypt _ => false
  | .subbytes | .invsubbytes | .shiftrows | .invshiftrows | .mixcolumns | .invmixcolumns => false

/-- The commands that replace a state in S by a function of it (spec/10_state.md R31). -/
def Instr.rewritesState (i : Instr) : Prop :=
  (∃ k, i = .addroundkey k) ∨
    i ∈ [.subbytes, .invsubbytes, .shiftrows, .invshiftrows, .mixcolumns, .invmixcolumns]

end Sys2Proof

namespace Sys2Proof.Machine

/-- Every effect a command can have on a state, each the frame of the command that has it; `exec_effect`
says that `exec` has no other. -/
inductive CommandEffect (s : State) : Instr → State → Prop where
  | failed {i : Instr} {e : Status} (he : e ≠ .ok) : CommandEffect s i (s.emit e [])
  | answered {i : Instr} {r : List Byte} (hi : i.onlyAnswers) (hr : r.length = i.op.row.result) :
      CommandEffect s i (s.emit .ok r)
  | cleared : CommandEffect s .clear ({ s with W := none, S := none }.emit .ok [])
  | keyExpanded (key : Block) :
      CommandEffect s (.expandkey key) ({ s with W := some (expandKey key) }.emit .ok [])
  | stateLoaded (b : Block) : CommandEffect s (.ldstate b) ({ s with S := some b }.emit .ok [])
  | stateRewritten {i : Instr} {b : Block} (b' : Block) (hi : i.rewritesState) (hb : s.S = some b) :
      CommandEffect s i ({ s with S := some b' }.emit .ok [])
  | blockRun {i : Instr} {b : Block} {w : ExpandedKey} (out : Block) (hi : i = .encrypt b ∨ i = .decrypt b)
      (hw : s.W = some w) : CommandEffect s i ({ s with S := none, SEQ := .idle }.emit .ok (blockBytes out))

variable {s t : State} {i : Instr}

/-! #### The sequencer after a run -/

/-- SEQ moves by the `next` column alone, whatever the key and the block (spec/45_block_cipher.md R172,
R175). -/
theorem runPositions_seq (w : ExpandedKey) (n : Nat) (x : Sequencer × Block) :
    (runPositions w n x).1 = nextPosition^[n] x.1 := by
  induction n generalizing x with
  | zero => rfl
  | succ n ih => exact ih _

theorem runEncrypt_seq (w : ExpandedKey) (b : Block) : (runEncrypt w b).1 = .idle :=
  (runPositions_seq w 11 _).trans rfl

theorem runDecrypt_seq (w : ExpandedKey) (b : Block) : (runDecrypt w b).1 = .idle :=
  (runPositions_seq w 11 _).trans rfl

/-! #### The effects of the shared operations -/

theorem respond_effect {r : List Byte} (hi : i.onlyAnswers) (hr : r.length = i.op.row.result)
    (h : respond r s = .next t) : CommandEffect s i t :=
  respond_next.mp h ▸ .answered hi hr

theorem raise_effect {e : Status} (he : e ≠ .ok) (h : raise e s = .next t) : CommandEffect s i t :=
  raise_next.mp h ▸ .failed he

theorem withKey_effect {k : ExpandedKey → Result} (h : withKey s k = .next t)
    (hk : ∀ w, s.W = some w → k w = .next t → CommandEffect s i t) : CommandEffect s i t := by
  obtain ⟨-, rfl⟩ | ⟨w, hw, h⟩ := withKey_next h
  · exact .failed (by decide)
  · exact hk w hw h

theorem transformState_effect {f : Block → Block} (hi : i.rewritesState)
    (h : transformState f s = .next t) : CommandEffect s i t := by
  obtain ⟨-, rfl⟩ | ⟨b, hb, rfl⟩ := transformState_next h
  · exact .failed (by decide)
  · exact .stateRewritten _ hi hb

theorem finishBlock_effect {b : Block} {w : ExpandedKey} {run : Sequencer × Block}
    (hi : i = .encrypt b ∨ i = .decrypt b) (hw : s.W = some w) (hrun : run.1 = .idle)
    (h : finishBlock s run = .next t) : CommandEffect s i t := by
  obtain rfl := respond_next.mp h
  rw [hrun]
  exact .blockRun run.2 hi hw

/-! #### The effects of the commands with more than one outcome -/

theorem execRdstate_effect (h : execRdstate s = .next t) : CommandEffect s .rdstate t := by
  obtain ⟨-, rfl⟩ | ⟨b, -, h⟩ := withState_next h
  · exact .failed (by decide)
  · exact respond_effect rfl (by simp [blockBytes, Instr.op, Op.row]) h

theorem execRdrk_effect {k : Byte} (h : execRdrk k s = .next t) : CommandEffect s (.rdrk k) t := by
  unfold execRdrk at h
  split at h
  · exact raise_effect (by decide) h
  · exact withKey_effect h fun w _ => respond_effect rfl (by simp [blockBytes, Instr.op, Op.row])

theorem execAddroundkey_effect {k : BitVec 4} (h : execAddroundkey k s = .next t) :
    CommandEffect s (.addroundkey k) t := by
  unfold execAddroundkey at h
  split at h
  · exact raise_effect (by decide) h
  · exact withKey_effect h fun w _ => transformState_effect (.inl ⟨k, rfl⟩)

/-- Everything a command can do. -/
theorem exec_effect (h : exec i s = .next t) : CommandEffect s i t := by
  cases i with
  | nop | status | xtime | gfmul | subbyte | invsubbyte | rotword | subword => exact respond_effect rfl rfl h
  | clear => exact respond_next.mp h ▸ .cleared
  | expandkey key => exact respond_next.mp h ▸ .keyExpanded key
  | ldstate b => exact respond_next.mp h ▸ .stateLoaded b
  | rdrk => exact execRdrk_effect h
  | rdstate => exact execRdstate_effect h
  | subbytes | invsubbytes | shiftrows | invshiftrows | mixcolumns | invmixcolumns =>
    exact transformState_effect (.inr (by decide)) h
  | addroundkey => exact execAddroundkey_effect h
  | encrypt b =>
    exact withKey_effect h fun w hw => finishBlock_effect (.inl rfl) hw (runEncrypt_seq w b)
  | decrypt b =>
    exact withKey_effect h fun w hw => finishBlock_effect (.inr rfl) hw (runDecrypt_seq w b)

/-! #### What a command does to each register -/

/-- No command touches the command channel, the reset input or the model's counter. -/
theorem exec_keeps_interfaces (h : exec i s = .next t) :
    t.commands = s.commands ∧ t.resetLine = s.resetLine ∧ t.transportDraws = s.transportDraws := by
  cases exec_effect h <;> exact ⟨rfl, rfl, rfl⟩

/-- What a command can leave in W (spec/10_state.md R31). -/
theorem exec_W (h : exec i s = .next t) :
    t.W = s.W ∨ (i = .clear ∧ t.W = none) ∨ ∃ key, i = .expandkey key ∧ t.W = some (expandKey key) := by
  cases exec_effect h with
  | failed | answered | stateLoaded | stateRewritten | blockRun => exact .inl rfl
  | cleared => exact .inr (.inl ⟨rfl, rfl⟩)
  | keyExpanded key => exact .inr (.inr ⟨key, rfl, rfl⟩)

/-- What a command can leave in S (spec/10_state.md R31). -/
theorem exec_S (h : exec i s = .next t) :
    t.S = s.S ∨ (i = .clear ∧ t.S = none) ∨ (∃ b, i = .ldstate b ∧ t.S = some b) ∨
      (i.rewritesState ∧ s.S ≠ none) ∨ ((∃ b, i = .encrypt b ∨ i = .decrypt b) ∧ t.S = none) := by
  cases exec_effect h with
  | failed | answered | keyExpanded => exact .inl rfl
  | cleared => exact .inr (.inl ⟨rfl, rfl⟩)
  | stateLoaded b => exact .inr (.inr (.inl ⟨b, rfl, rfl⟩))
  | stateRewritten b' hi hb => exact .inr (.inr (.inr (.inl ⟨hi, by simp [hb]⟩)))
  | blockRun out hi => exact .inr (.inr (.inr (.inr ⟨⟨_, hi⟩, rfl⟩)))

/-- What a command can leave in SEQ (spec/10_state.md R25, R31). -/
theorem exec_SEQ (h : exec i s = .next t) :
    t.SEQ = s.SEQ ∨ ((∃ b, i = .encrypt b ∨ i = .decrypt b) ∧ t.SEQ = .idle) := by
  cases exec_effect h with
  | failed | answered | cleared | keyExpanded | stateLoaded | stateRewritten => exact .inl rfl
  | blockRun out hi => exact .inr ⟨⟨_, hi⟩, rfl⟩

end Sys2Proof.Machine
end

section
/-! ### The registers between steps: the statements of spec/10_state.md -/

namespace Sys2Proof.Machine

variable {s t : State} {i : Instr}

/-- The words EXPANDKEY builds satisfy the recurrence (spec/10_state.md R23). -/
theorem scheduleHolds_expandKey (key : Block) : scheduleHolds (expandKey key) := by
  rintro ⟨n, hn⟩
  have below (i : Nat) (hi : i < n + 4) : (expandKey key)[i] = (expandWords key n (by omega))[i] :=
    expandKey_eq_expandWords key n (by omega) i hi
  have last : (expandKey key)[n + 4] = nextWord n hn (expandWords key n (by omega)) := by
    rw [expandKey_eq_expandWords key (n + 1) hn (n + 4) (by omega), expandWords_succ_last]
  simp only [last, below n (by omega), below (n + 3) (by omega), nextWord]

/-- The invariant depends on SEQ and W alone, so answering keeps it. -/
theorem State.Inv.emit (hs : s.Inv) (e : Status) (r : List Byte) : (s.emit e r).Inv := hs

theorem State.Inv.of_no_key (hseq : s.SEQ = .idle) (hw : s.W = none) : s.Inv :=
  ⟨hseq, by simp [hw]⟩

/-- Every command keeps the good state: W is kept, lost, or an expanded key. -/
theorem exec_keeps_inv (h : exec i s = .next t) (hs : s.Inv) : t.Inv := by
  obtain ⟨hseq, hw⟩ := hs
  have hseq' : t.SEQ = .idle := by
    obtain h | ⟨-, h⟩ := exec_SEQ h
    · exact h.trans hseq
    · exact h
  obtain h | ⟨-, h⟩ | ⟨key, -, h⟩ := exec_W h
  · exact ⟨hseq', h ▸ hw⟩
  · exact .of_no_key hseq' h
  · refine ⟨hseq', fun w hw' => ?_⟩
    obtain rfl : expandKey key = w := by simpa [h] using hw'
    exact scheduleHolds_expandKey key

/-- Settles O33, by what a step can do: reset, nothing, an answer, or a command, which keeps the good
state by `exec_keeps_inv`. -/
theorem stepKeepsTheGoodState : Obligations.StepKeepsTheGoodState := by
  intro s t hs h
  obtain ⟨-, rfl⟩ | ⟨-, -, rfl⟩ | ⟨f, rest, -, -, ⟨e, -, rfl⟩ | ⟨i, -, h⟩⟩ := step_next h
  · exact .of_no_key rfl rfl
  · exact hs
  · exact State.Inv.emit hs e []
  · exact exec_keeps_inv h hs

/-- Settles O40, from what a command can leave in each register. -/
theorem onlyTheNamedCommandsWriteEachRegister : Obligations.OnlyTheNamedCommandsWriteEachRegister := by
  intro i s t h
  obtain ⟨hcommands, hreset, hdraws⟩ := exec_keeps_interfaces h
  refine ⟨hcommands, hreset, hdraws, fun hne => ?_, fun hne => ?_, fun hne => ?_, fun h0 hne => ?_,
    fun h0 hne => ?_⟩
  · obtain hW | ⟨hi, -⟩ | ⟨key, hi, -⟩ := exec_W h
    · exact absurd hW hne
    · exact .inl hi
    · exact .inr ⟨key, hi⟩
  · obtain hS | ⟨hi, -⟩ | ⟨b, hi, -⟩ | ⟨hi | hi, -⟩ | ⟨⟨b, hi | hi⟩, -⟩ := exec_S h
    · exact absurd hS hne
    all_goals simp [hi]
  · obtain hSEQ | ⟨⟨b, hi | hi⟩, -⟩ := exec_SEQ h
    · exact absurd hSEQ hne
    · exact .inl ⟨b, hi⟩
    · exact .inr ⟨b, hi⟩
  · obtain hS | ⟨-, hS⟩ | ⟨b, hi, -⟩ | ⟨-, hS⟩ | ⟨-, hS⟩ := exec_S h
    · exact absurd (hS.trans h0) hne
    · exact absurd hS hne
    · exact ⟨b, hi⟩
    · exact absurd h0 hS
    · exact absurd hS hne
  · obtain hW | ⟨-, hW⟩ | ⟨key, hi, -⟩ := exec_W h
    · exact absurd (hW.trans h0) hne
    · exact absurd hW hne
    · exact ⟨key, hi⟩

/-- STATUS reads 0x00 where neither register holds a value (spec/10_state.md R28). -/
theorem statusByte_of_empty (hw : s.W = none) (hb : s.S = none) : s.statusByte = 0x00 := by
  simp [State.statusByte_eq, hw, hb]

/-- Settles O1. CLEAR writes both registers and leaves SEQ, which is IDLE between steps. -/
theorem resetAndClearHoldNothing : Obligations.ResetAndClearHoldNothing := by
  refine ⟨rfl, rfl, rfl, rfl, rfl, statusByte_of_empty rfl rfl, fun s hseq => ?_⟩
  exact ⟨_, rfl, rfl, rfl, hseq, rfl, rfl, statusByte_of_empty rfl rfl⟩

/-- Settles O34. Reset holds no key. -/
theorem resetIsAGoodState : Obligations.ResetIsAGoodState := .of_no_key rfl rfl

end Sys2Proof.Machine
end

section
/-! ### The substitution tables and RCON: the statements of spec/20_memory.md -/

namespace Sys2Proof.Machine

/-! #### The field multiplier: it commutes, and a byte has at most one inverse -/

@[simp] theorem zero_gmul (a : Byte) : gmul 0#8 a = 0#8 := by
  simpa using gmul_xor_left 0#8 0#8 a

/-- `gmul` distributes over XOR on the right (it is linear in its second operand). -/
theorem gmul_xor_right (a b c : Byte) : gmul a (b ^^^ c) = gmul a b ^^^ gmul a c :=
  gmulLoop_xor_right 8 a b c

@[simp] theorem gmul_zero (a : Byte) : gmul a 0#8 = 0#8 := by
  simpa using gmul_xor_right a 0#8 0#8

/-- 1 is the unit (spec/41_field_arithmetic.md R105): the loop rebuilds its second operand bit by bit. -/
theorem one_gmul : ∀ a : Byte, gmul 1 a = a := by decide

/-- A multiplication on the right moves inside the loop, since it is additive and commutes with doubling. -/
theorem gmul_gmulLoop (n : Nat) (a b c : Byte) :
    gmul (gmulLoop n 0 a b) c = gmulLoop n 0 (gmul a c) b := by
  induction n generalizing a b with
  | zero => exact zero_gmul c
  | succ n ih =>
    have double : gmul (xtime a) c = xtime (gmul a c) := gmulLoop_xtime 8 a c
    simp only [gmulLoop]
    rw [gmulLoop_acc, gmul_xor_left, ih, double,
      gmulLoop_acc n (if b.getLsbD 0 then 0 ^^^ gmul a c else 0)]
    cases b.getLsbD 0 <;> simp

theorem gmul_right_comm (a b c : Byte) : gmul (gmul a b) c = gmul (gmul a c) b :=
  gmul_gmulLoop 8 a b c

theorem gmul_comm (a b : Byte) : gmul a b = gmul b a := by
  simpa only [one_gmul] using gmul_right_comm 1 a b

theorem eq_of_gmul_eq_one {a b x : Byte} (ha : gmul a x = 1) (hb : gmul b x = 1) : a = b := by
  calc a = gmul (gmul b x) a := by rw [hb, one_gmul]
    _ = gmul (gmul a x) b := by rw [gmul_comm b x, gmul_right_comm, gmul_comm x a]
    _ = b := by rw [ha, one_gmul]

/-! #### The tables -/

/-- The affine map of the cross-check after R44 (spec/20_memory.md). -/
def sboxAffine (x : Byte) : Byte :=
  x ^^^ x.rotateLeft 1 ^^^ x.rotateLeft 2 ^^^ x.rotateLeft 3 ^^^ x.rotateLeft 4 ^^^ 0x63

/-- INV_SBOX undoes SBOX (spec/20_memory.md R47), by inspection of the 256 entries. -/
@[simp] theorem isbox_sbox : ∀ a : Byte, isbox (sbox a) = a := by decide

/-- SBOX undoes INV_SBOX (spec/20_memory.md R47), by inspection of the 256 entries. -/
@[simp] theorem sbox_isbox : ∀ a : Byte, sbox (isbox a) = a := by decide

/-- SBOX fixes no byte and complements none (spec/20_memory.md R47), by inspection of the 256 entries. -/
theorem sbox_ne : ∀ a : Byte, sbox a ≠ a ∧ sbox a ≠ a ^^^ 0xFF := by decide

/-- INV_SBOX inverts the affine map up to the field inverse (spec/20_memory.md, the cross-check after R44),
by inspection of the 255 bytes with an inverse. -/
theorem gmul_isbox_sboxAffine : ∀ x : Byte, x ≠ 0 → gmul (isbox (sboxAffine x)) x = 1 := by decide

/-- Settles O12: the entry of INV_SBOX at the affine image of `x` is an inverse of `x`, hence the only one,
and SBOX undoes INV_SBOX. -/
theorem sboxIsAffineOfFieldInverse : Obligations.SboxIsAffineOfFieldInverse := by
  refine ⟨rfl, fun a x h => ?_⟩
  have hx : x ≠ 0 := by
    rintro rfl
    exact absurd (h.symm.trans (gmul_zero a)) (by decide)
  obtain rfl : a = isbox (sboxAffine x) := eq_of_gmul_eq_one h (gmul_isbox_sboxAffine x hx)
  exact sbox_isbox (sboxAffine x)

/-- Settles O11. Two maps that undo each other are bijections. -/
theorem tablesAreInversePermutations : Obligations.TablesAreInversePermutations :=
  ⟨isbox_sbox, sbox_isbox,
    Function.bijective_iff_has_inverse.mpr ⟨isbox, isbox_sbox, sbox_isbox⟩,
    Function.bijective_iff_has_inverse.mpr ⟨sbox, sbox_isbox, isbox_sbox⟩, sbox_ne⟩

/-- Settles O13, each clause by inspection of the eleven entries. -/
theorem rconDoublesInTheTopByte : Obligations.RconDoublesInTheTopByte :=
  ⟨rfl, rfl, by decide, by decide, rfl⟩

end Sys2Proof.Machine
end

section
/-! ### The decoder and the encoder: the statements of spec/30_encoding.md about frames -/

namespace Sys2Proof

open Sys2Proof.Machine

variable {op : Byte} {o : Op} {p : List Byte} {f : Frame} {i : Instr} {e : Status}

/-! #### The decoder: the case of a round key that does not exist, and every rejection -/

theorem decode_cons_of_roundOutOfRange (p : List Byte) (h : selectOp op = some o)
    (hk : roundOutOfRange o op = true) : decode (op :: p) = .error .illegalOpcode := by
  simp [decode, h, hk]

/-- What a rejected frame is answered with. -/
theorem decode_error (h : decode f = .error e) : e = .illegalOpcode ∨ ∃ o : Op, e = o.lengthStatus := by
  cases f with
  | nil => exact .inl (Except.error.inj h).symm
  | cons op p =>
    cases ho : selectOp op with
    | none => exact .inl (Except.error.inj ((decode_cons_of_none p ho).symm.trans h)).symm
    | some o =>
      cases hk : roundOutOfRange o op with
      | true => exact .inl (Except.error.inj ((decode_cons_of_roundOutOfRange p ho hk).symm.trans h)).symm
      | false =>
        rw [decode_cons_of_some p ho hk] at h
        split at h
        · exact .inr ⟨o, (Except.error.inj h).symm⟩
        · cases h

theorem lengthStatus_ne_ok (o : Op) : o.lengthStatus ≠ .ok := by cases o <;> decide

theorem lengthStatus_ne_illegalOpcode (o : Op) : o.lengthStatus ≠ .illegalOpcode := by cases o <;> decide

theorem decode_error_ne_ok (h : decode f = .error e) : e ≠ .ok := by
  obtain rfl | ⟨o, rfl⟩ := decode_error h
  · decide
  · exact lengthStatus_ne_ok o

/-! #### Legal opcodes -/

/-- The opcode byte alone decides whether a frame is ILLEGAL_OPCODE: no row matches it, or it names a round
key that does not exist (spec/30_encoding.md R78, R79). -/
theorem decode_cons_illegalOpcode_iff :
    decode (op :: p) = .error .illegalOpcode ↔ (selectOp op).all (roundOutOfRange · op) = true := by
  cases ho : selectOp op with
  | none => simp [decode_cons_of_none p ho]
  | some o =>
    cases hk : roundOutOfRange o op with
    | true => simp [decode_cons_of_roundOutOfRange p ho hk, hk]
    | false =>
      rw [decode_cons_of_some p ho hk]
      split <;> simp [hk, lengthStatus_ne_illegalOpcode]

/-- The 32 legal opcodes (spec/30_encoding.md R79). -/
def legalOpcodes : List Byte :=
  [0x00, 0x01, 0x02, 0x10, 0x11, 0x20, 0x21, 0x30, 0x31, 0x32, 0x33,
    0x40, 0x41, 0x42, 0x43, 0x44, 0x45, 0x46, 0x47,
    0x50, 0x51, 0x52, 0x53, 0x54, 0x55, 0x56, 0x57, 0x58, 0x59, 0x5A, 0x60, 0x61]

/-- The opcodes the map accepts are the 32 legal ones, by inspection of the 256 bytes. -/
theorem selectOp_all_roundOutOfRange_iff : ∀ op : Byte,
    (selectOp op).all (roundOutOfRange · op) = true ↔ op ∉ legalOpcodes := by decide

theorem decode_cons_illegalOpcode_iff_not_mem :
    decode (op :: p) = .error .illegalOpcode ↔ op ∉ legalOpcodes :=
  decode_cons_illegalOpcode_iff.trans (selectOp_all_roundOutOfRange_iff op)

/-- Settles O46: which opcodes are illegal is `decode_cons_illegalOpcode_iff_not_mem`, and a step answers
what the decoder rejects. -/
theorem illegalOpcodesAreRejected : Obligations.IllegalOpcodesAreRejected := by
  refine ⟨rfl, fun _ _ => decode_cons_illegalOpcode_iff_not_mem, fun s => ?_⟩
  refine ⟨step_offer_error (e := .illegalOpcode) rfl s, ?_⟩
  exact fun op p hop => step_offer_error (decode_cons_illegalOpcode_iff_not_mem.mpr hop) s

/-! #### The length of the payload -/

/-- The opcode byte is legal, and its row takes `n` payload bytes and has the length status `e`. -/
def hasFormat (op : Byte) (n : Nat) (e : Status) : Bool :=
  (selectOp op).any fun o => !roundOutOfRange o op && o.row.payload == n && o.lengthStatus == e

/-- With a legal opcode the payload's length alone decides whether the frame is accepted
(spec/30_encoding.md R75). -/
theorem decode_of_hasFormat {n : Nat} (h : hasFormat op n e = true) :
    (p.length = n → ∃ i, decode (op :: p) = .ok i) ∧ (p.length ≠ n → decode (op :: p) = .error e) := by
  obtain ⟨o, ho, h⟩ := (Option.any_eq_true ..).mp h
  obtain ⟨⟨hk, rfl⟩, rfl⟩ : (roundOutOfRange o op = false ∧ o.row.payload = n) ∧ o.lengthStatus = e := by
    simpa using h
  rw [decode_cons_of_some p ho hk]
  exact ⟨fun hl => ⟨_, if_neg (not_not.mpr hl)⟩, fun hl => if_pos hl⟩

/-- The rule of R75 for the opcodes of one format, with the step's answer. -/
theorem lengthIsExact {ops : List Byte} {n : Nat} (hops : ∀ op ∈ ops, hasFormat op n e = true) :
    ∀ op ∈ ops, ∀ p : List Byte,
      (p.length = n → ∃ i, decode (op :: p) = .ok i) ∧
      (p.length ≠ n → decode (op :: p) = .error e ∧
        ∀ s : State, step (s.offer (op :: p)) = .next (s.answered [statusCode e])) := by
  intro op hop p
  obtain ⟨accepted, rejected⟩ := decode_of_hasFormat (p := p) (hops op hop)
  exact ⟨accepted, fun hl => ⟨rejected hl, step_offer_error (rejected hl)⟩⟩

/-- Settles O47, one format at a time, the rows of the opcodes by inspection. -/
theorem payloadLengthIsExact : Obligations.PayloadLengthIsExact :=
  ⟨lengthIsExact (by decide), lengthIsExact (by decide), lengthIsExact (by decide),
    lengthIsExact (by decide), lengthIsExact (by decide), lengthIsExact (by decide)⟩

/-! #### Decoding what was encoded -/

@[simp] theorem blockBytes_length (b : Block) : (blockBytes b).length = 16 := Vector.length_toList

/-- The encoder lays out as many payload bytes as the format asks (spec/30_encoding.md R74). -/
theorem payload_length (i : Instr) : i.payload.length = i.op.row.payload := by
  cases i with
  | expandkey b | ldstate b | encrypt b | decrypt b => exact blockBytes_length b
  | _ => rfl

/-- ADDROUNDKEY's opcode byte selects its row whatever the four low bits, and holds them. -/
theorem addroundkey_opcodeByte : ∀ k : BitVec 4,
    selectOp (Instr.addroundkey k).opcodeByte = some .addroundkey ∧
      opcodeRound (Instr.addroundkey k).opcodeByte = k := by decide

/-- No row of the opcode map shadows another. -/
theorem selectOp_opMatch (o : Op) : selectOp o.row.opMatch = some o := by cases o <;> rfl

theorem selectOp_opcodeByte (i : Instr) : selectOp i.opcodeByte = some i.op := by
  cases i with
  | addroundkey k => exact (addroundkey_opcodeByte k).1
  | _ => exact selectOp_opMatch _

theorem roundOutOfRange_opcodeByte (h : i.wellFormed = true) : roundOutOfRange i.op i.opcodeByte = false := by
  cases i with
  | addroundkey k =>
    have hk : k ≤ 10#4 := by simpa [Instr.wellFormed] using h
    simpa [roundOutOfRange, Instr.op, (addroundkey_opcodeByte k).2] using hk
  | _ => rfl

@[simp] theorem payloadWord_wordBytes (w : Word) : payloadWord (wordBytes w) = w := packWord_byteOf w

/-- Forming a command from its own opcode byte and payload gives it back. -/
theorem formCommand_opcodeByte_payload (i : Instr) : formCommand i.op i.opcodeByte i.payload = i := by
  cases i with
  | addroundkey k => exact congrArg Instr.addroundkey (addroundkey_opcodeByte k).2
  | rotword w | subword w | expandkey b | ldstate b | encrypt b | decrypt b =>
    simp [formCommand, Instr.op, Instr.payload]
  | _ => rfl

/-- Settles O49: the opcode byte selects the command's row, the payload has its length, and the operands
are read back. -/
theorem decodeEncodeRoundTrip : Obligations.DecodeEncodeRoundTrip := by
  intro i hi
  rw [encode, decode_cons_of_some _ (selectOp_opcodeByte i) (roundOutOfRange_opcodeByte hi),
    if_neg (not_not.mpr (payload_length i)), formCommand_opcodeByte_payload]

/-- Settles O51: each frame is the encoding of its command, so it decodes to the command. -/
theorem writtenFramesDecode : Obligations.WrittenFramesDecode :=
  ⟨decodeEncodeRoundTrip .nop rfl, decodeEncodeRoundTrip (.gfmul 0x57 0x83) rfl,
    decodeEncodeRoundTrip (.invsubbyte 0xED) rfl, decodeEncodeRoundTrip (.rotword 0x09CF4F3C) rfl,
    decodeEncodeRoundTrip (.rdrk 10) rfl, decodeEncodeRoundTrip .mixcolumns rfl,
    decodeEncodeRoundTrip (.addroundkey 10) rfl,
    decodeEncodeRoundTrip (.encrypt #v[0, 1, 2, 3, 4, 5, 6, 7, 8, 9, 10, 11, 12, 13, 14, 15]) rfl⟩

/-! #### Encoding what was decoded -/

/-- Every row but ADDROUNDKEY's matches one opcode byte. -/
theorem eq_opMatch_of_selectOp (h : selectOp op = some o) (ho : o.row.mask = 0xFF) :
    op = o.row.opMatch := by
  have hmatch : op &&& o.row.mask = o.row.opMatch := by simpa using List.find?_some h
  rw [← hmatch, ho]
  exact BitVec.and_allOnes.symm

/-- An opcode byte of ADDROUNDKEY's row is rebuilt from its four low bits. -/
theorem opcodeByte_addroundkey_opcodeRound : ∀ op : Byte, selectOp op = some .addroundkey →
    (Instr.addroundkey (opcodeRound op)).opcodeByte = op := by decide

theorem formCommand_opcodeByte (h : selectOp op = some o) : (formCommand o op p).opcodeByte = op := by
  cases o with
  | addroundkey => exact opcodeByte_addroundkey_opcodeRound op h
  | _ => exact (eq_opMatch_of_selectOp h rfl).symm

theorem wordBytes_payloadWord (h : p.length = 4) : wordBytes (payloadWord p) = p := by
  obtain ⟨b0, b1, b2, b3, rfl⟩ := List.length_eq_four.mp h
  simp [wordBytes, payloadWord, payloadByte, byteOf_packWord]

theorem formCommand_payload (h : p.length = o.row.payload) : (formCommand o op p).payload = p := by
  cases o with
  | xtime | subbyte | invsubbyte | rdrk =>
    obtain ⟨a, rfl⟩ := List.length_eq_one_iff.mp h
    rfl
  | gfmul =>
    obtain ⟨a, b, rfl⟩ := List.length_eq_two.mp h
    rfl
  | rotword | subword => exact wordBytes_payloadWord h
  | expandkey | ldstate | encrypt | decrypt => exact blockBytes_payloadBlock h
  | _ => exact (List.length_eq_zero_iff.mp h).symm

theorem formCommand_wellFormed (h : roundOutOfRange o op = false) : (formCommand o op p).wellFormed = true := by
  cases o with
  | addroundkey => simpa [roundOutOfRange, formCommand, Instr.wellFormed] using h
  | _ => rfl

/-- Settles O50, from what an accepted frame is. -/
theorem encodeDecodeRoundTrip : Obligations.EncodeDecodeRoundTrip := by
  intro f i h
  obtain ⟨op, p, o, rfl, ho, hk, hl, rfl⟩ := decode_ok h
  exact ⟨formCommand_wellFormed hk, by rw [encode, formCommand_opcodeByte ho, formCommand_payload hl]⟩

end Sys2Proof
end

section
/-! ### Frames taken and responses sent: the statements of spec/30_encoding.md about a step -/

namespace Sys2Proof.Machine

variable {s t : State} {i : Instr} {f : Frame} {rest : List Frame} {e : Status}

/-! #### A step with a frame waiting -/

theorem step_of_decode_ok (hr : s.resetLine = false) (hc : s.commands = f :: rest)
    (hd : decode f = .ok i) : step s = exec i { s with commands := rest } := by
  simp [step, hr, takeFrame_cons hc, hd]

theorem step_of_decode_error (hr : s.resetLine = false) (hc : s.commands = f :: rest)
    (hd : decode f = .error e) : step s = .next ({ s with commands := rest }.emit e []) := by
  simp [step, hr, takeFrame_cons hc, hd, raise]

theorem decodeTableWord_eq_some {nbits w : Nat} :
    decodeTableWord nbits w = some i ↔ decode (tableFrame nbits w) = .ok i := by
  unfold decodeTableWord
  cases decode (tableFrame nbits w) <;> simp [Except.toOption]

/-- Settles O44. Placing a table word is offering its frame. -/
theorem stepRunsTheDecodedCommand : Obligations.StepRunsTheDecodedCommand :=
  ⟨fun _ _ _ _ => step_of_decode_ok, fun s _ _ _ h => step_offer_ok (decodeTableWord_eq_some.mp h) s⟩

/-- Settles O45. -/
theorem stepAnswersARejectedFrame : Obligations.StepAnswersARejectedFrame :=
  fun _ _ _ _ hr hc hd => ⟨decode_error_ne_ok hd, step_of_decode_error hr hc hd⟩

/-! #### Every command answers -/

theorem withKey_total {k : ExpandedKey → Result} (hk : ∀ w, ∃ t, k w = .next t) :
    ∃ t, withKey s k = .next t := by
  unfold withKey
  split
  · exact ⟨_, rfl⟩
  · exact hk _

theorem withState_total {k : Block → Result} (hk : ∀ b, ∃ t, k b = .next t) :
    ∃ t, withState s k = .next t := by
  unfold withState
  split
  · exact ⟨_, rfl⟩
  · exact hk _

theorem transformState_total (g : Block → Block) (s : State) : ∃ t, transformState g s = .next t :=
  withState_total fun _ => ⟨_, rfl⟩

theorem execRdrk_total (k : Byte) (s : State) : ∃ t, execRdrk k s = .next t := by
  unfold execRdrk
  split
  · exact ⟨_, rfl⟩
  · exact withKey_total fun _ => ⟨_, rfl⟩

theorem execAddroundkey_total (k : BitVec 4) (s : State) : ∃ t, execAddroundkey k s = .next t := by
  unfold execAddroundkey
  split
  · exact ⟨_, rfl⟩
  · exact withKey_total fun _ => transformState_total _ s

/-- Every command ends in a next state, from every state (spec/60_exceptions.md R235). -/
theorem exec_total (i : Instr) (s : State) : ∃ t, exec i s = .next t := by
  cases i with
  | rdrk k => exact execRdrk_total k s
  | addroundkey k => exact execAddroundkey_total k s
  | rdstate => exact withState_total fun _ => ⟨_, rfl⟩
  | subbytes | invsubbytes | shiftrows | invshiftrows | mixcolumns | invmixcolumns =>
    exact transformState_total _ s
  | encrypt b | decrypt b => exact withKey_total fun _ => ⟨_, rfl⟩
  | _ => exact ⟨_, rfl⟩

/-! #### The format of a response -/

theorem rewritesState_result (h : i.rewritesState) : i.op.row.result = 0 := by
  obtain ⟨k, rfl⟩ | h := h
  · rfl
  · revert i
    decide

/-- A command adds one response: a non-OK status alone, or OK and the bytes of its format
(spec/30_encoding.md R73, R74). -/
theorem exec_response (h : exec i s = .next t) : ∃ r, t.responses = s.responses ++ [r] ∧
    ((∃ e, e ≠ Status.ok ∧ r = [statusCode e]) ∨
      ∃ result, r = 0x00 :: result ∧ result.length = i.op.row.result) := by
  cases exec_effect h with
  | failed he => exact ⟨_, rfl, .inl ⟨_, he, rfl⟩⟩
  | answered _ hr => exact ⟨_, rfl, .inr ⟨_, rfl, hr⟩⟩
  | cleared | keyExpanded | stateLoaded => exact ⟨_, rfl, .inr ⟨_, rfl, rfl⟩⟩
  | stateRewritten _ hi => exact ⟨_, rfl, .inr ⟨_, rfl, (rewritesState_result hi).symm⟩⟩
  | blockRun out hi =>
    refine ⟨_, rfl, .inr ⟨_, rfl, ?_⟩⟩
    obtain rfl | rfl := hi <;> exact blockBytes_length out

/-- The result lengths of the opcode map (spec/30_encoding.md R74, R76). -/
theorem row_result_mem (o : Op) : o.row.result ∈ [0, 1, 4, 16] := by cases o <;> decide

theorem legalResponse_status (he : e ≠ .ok) : legalResponse [statusCode e] := .inl ⟨e, he, rfl⟩

theorem exec_legalResponse (h : exec i s = .next t) :
    ∃ r, t.responses = s.responses ++ [r] ∧ legalResponse r := by
  obtain ⟨r, hr, ⟨e, he, rfl⟩ | ⟨result, rfl, hl⟩⟩ := exec_response h
  · exact ⟨_, hr, legalResponse_status he⟩
  · exact ⟨_, hr, .inr ⟨result, rfl, hl ▸ row_result_mem i.op⟩⟩

/-- What a step does to the response channel: it leaves it, or it adds one legal response. -/
theorem step_responses (h : step s = .next t) :
    t.responses = s.responses ∨ ∃ r, t.responses = s.responses ++ [r] ∧ legalResponse r := by
  obtain ⟨-, rfl⟩ | ⟨-, -, rfl⟩ | ⟨f, rest, -, -, ⟨e, hd, rfl⟩ | ⟨i, -, h⟩⟩ := step_next h
  · exact .inl rfl
  · exact .inl rfl
  · exact .inr ⟨_, rfl, legalResponse_status (decode_error_ne_ok hd)⟩
  · exact .inr (exec_legalResponse (s := { s with commands := rest }) h)

theorem step_keeps_legalResponse (hs : ∀ r ∈ s.responses, legalResponse r) (h : step s = .next t) :
    ∀ r ∈ t.responses, legalResponse r := by
  obtain ht | ⟨r, ht, hr⟩ := step_responses h
  · rwa [ht]
  · rw [ht, List.forall_mem_append]
    exact ⟨hs, List.forall_mem_singleton.mpr hr⟩

/-- Settles O37: the format from `exec_response`, the code range by inspection of the eight codes, and the
channel from what a step does to it. -/
theorem responsesHaveTheirFormat : Obligations.ResponsesHaveTheirFormat :=
  ⟨fun _ _ _ => exec_response, fun e => by cases e <;> decide, fun _ _ => step_keeps_legalResponse⟩

/-! #### One response per frame -/

/-- A waiting frame is taken and answered once, whether it is rejected or decodes to a command. -/
theorem step_answers_waiting_frame (hr : s.resetLine = false) (hc : s.commands = f :: rest) :
    ∃ t r, step s = .next t ∧ t.commands = rest ∧ t.responses = s.responses ++ [r] := by
  cases hd : decode f with
  | error e => exact ⟨_, _, step_of_decode_error hr hc hd, rfl, rfl⟩
  | ok i =>
    obtain ⟨t, h⟩ := exec_total i { s with commands := rest }
    obtain ⟨r, hresponses, -⟩ := exec_response h
    exact ⟨t, r, (step_of_decode_ok hr hc hd).trans h, (exec_keeps_interfaces h).1, hresponses⟩

/-- Settles O38. -/
theorem oneResponsePerFrameAndNoOther : Obligations.OneResponsePerFrameAndNoOther := by
  refine ⟨fun _ _ _ => step_answers_waiting_frame, fun s hr hc => ?_, fun s hr => ?_⟩
  · simp [step, hr, takeFrame_none.mpr hc]
  · exact ⟨s.enterReset, by simp [step, hr], rfl⟩

end Sys2Proof.Machine
end

section
/-! ### The field multiplier: the statements of spec/41_field_arithmetic.md -/

namespace Sys2Proof.Machine

variable {op : Byte} {o : Op} {p r : List Byte}

/-! #### The doubling -/

theorem getLsbD_seven_eq_decide (a : Byte) : a.getLsbD 7 = decide (0x80 ≤ a.toNat) :=
  BitVec.msb_eq_decide a

theorem toNat_shiftLeft_one (a : Byte) : (a <<< 1).toNat = a.toNat * 2 % 256 := by
  rw [BitVec.toNat_shiftLeft, Nat.shiftLeft_eq, pow_one]

/-- Settles O6: bit 7 is set exactly from 0x80 on, and either way the shift doubles modulo 256. -/
theorem xtimeClosedForm : Obligations.XtimeClosedForm := by
  intro a
  rw [xtime, getLsbD_seven_eq_decide, ← toNat_shiftLeft_one]
  by_cases h : 0x80 ≤ a.toNat <;> simp [h]

/-! #### The product as a sum of doublings -/

/-- The loop adds, for each set bit of its second operand, as many doublings of the first as the bit's
index (spec/41_field_arithmetic.md R101): one iteration is bit 0, and the rest see the bits one place lower
and the first operand doubled once. -/
theorem gmulLoop_eq_foldl (n : Nat) (acc a b : Byte) : gmulLoop n acc a b =
    (List.range n).foldl (fun acc i => if b.getLsbD i then acc ^^^ xtime^[i] a else acc) acc := by
  induction n generalizing acc a b with
  | zero => rfl
  | succ n ih =>
    rw [List.range_succ_eq_map, List.foldl_cons, List.foldl_map, gmulLoop, ih]
    simp only [BitVec.getLsbD_ushiftRight, Nat.add_comm 1, Nat.succ_eq_add_one,
      Function.iterate_succ_apply, Function.iterate_zero_apply]

/-- Settles O8: eight iterations from accumulator 0. -/
theorem gmulIsXorOfDoublings : Obligations.GmulIsXorOfDoublings := gmulLoop_eq_foldl 8 0

/-! #### The field laws -/

theorem gmul_one (a : Byte) : gmul a 1 = a := (gmul_comm a 1).trans (one_gmul a)

/-- Multiplying by 2 is doubling: 2 is 1 doubled, and the loop commutes with doubling. -/
theorem gmul_two (a : Byte) : gmul a 2 = xtime a :=
  calc gmul a 2 = gmul (xtime 1) a := gmul_comm a 2
    _ = xtime (gmul 1 a) := gmulLoop_xtime 8 1 a
    _ = xtime a := by rw [one_gmul]

theorem gmul_three (a : Byte) : gmul a 3 = xtime a ^^^ a :=
  calc gmul a 3 = gmul a 2 ^^^ gmul a 1 := gmul_xor_right a 2 1
    _ = xtime a ^^^ a := by rw [gmul_two, gmul_one]

theorem gmul_assoc (a b c : Byte) : gmul (gmul a b) c = gmul a (gmul b c) :=
  calc gmul (gmul a b) c = gmul (gmul b c) a := by rw [gmul_comm a b, gmul_right_comm]
    _ = gmul a (gmul b c) := gmul_comm _ a

/-- Every byte but 0 has exactly one inverse; `gmul_isbox_sboxAffine` names it. -/
theorem existsUnique_gmul_eq_one {a : Byte} (ha : a ≠ 0) : ∃! x, gmul a x = 1 := by
  have inverse : gmul a (isbox (sboxAffine a)) = 1 := (gmul_comm _ _).trans (gmul_isbox_sboxAffine a ha)
  refine ⟨_, inverse, fun x hx => ?_⟩
  exact eq_of_gmul_eq_one ((gmul_comm x a).trans hx) ((gmul_comm _ a).trans inverse)

/-- There are no zero divisors: a byte other than 0 can be cancelled by its inverse. -/
theorem eq_zero_or_eq_zero_of_gmul_eq_zero {a b : Byte} (h : gmul a b = 0) : a = 0 ∨ b = 0 := by
  refine or_iff_not_imp_left.mpr fun ha => ?_
  obtain ⟨x, hx, -⟩ := existsUnique_gmul_eq_one ha
  calc b = gmul (gmul a x) b := by rw [hx, one_gmul]
    _ = gmul (gmul a b) x := gmul_right_comm a x b
    _ = 0 := by rw [h]; exact zero_gmul x

/-- Settles O9, one law at a time; the two example inverses by evaluation. -/
theorem gmulFieldLaws : Obligations.GmulFieldLaws :=
  ⟨fun a b => ⟨gmul_zero a, zero_gmul b⟩, fun a b => ⟨gmul_one a, one_gmul b⟩, gmul_two, gmul_three,
    gmul_comm, gmul_assoc, gmul_xor_right, fun _ => existsUnique_gmul_eq_one, ⟨by decide, by decide⟩,
    fun _ _ => eq_zero_or_eq_zero_of_gmul_eq_zero⟩

/-! #### XTIME and GFMUL -/

/-- A step on an offered frame with a legal opcode: the payload's length is checked, then the command
runs. -/
theorem step_offer_cons (ho : selectOp op = some o) (hk : roundOutOfRange o op = false) (s : State) :
    step (s.offer (op :: p)) =
      if p.length ≠ o.row.payload then .next (s.answered [statusCode o.lengthStatus])
      else exec (formCommand o op p) { s with resetLine := false } := by
  have hd := decode_cons_of_some p ho hk
  split at hd
  · next hl => rw [if_pos hl, step_offer_error hd]
  · next hl => rw [if_neg hl, step_offer_ok hd]

/-- A command that only responds is answered with its length status or with its result, and nothing else
changes. -/
theorem step_offer_cons_of_respond (ho : selectOp op = some o) (hk : roundOutOfRange o op = false)
    (hexec : ∀ s, exec (formCommand o op p) s = respond r s) (s : State) :
    step (s.offer (op :: p)) = .next (s.answered
      (if p.length ≠ o.row.payload then [statusCode o.lengthStatus] else statusCode .ok :: r)) := by
  rw [step_offer_cons ho hk, hexec]
  split <;> rfl

/-- Settles O5: XTIME only responds. -/
theorem xtimeAnswersTheDoubledByte : Obligations.XtimeAnswersTheDoubledByte :=
  ⟨fun s _ => step_offer_cons_of_respond (o := .xtime) rfl rfl (fun _ => rfl) s, fun _ _ => rfl⟩

/-- Settles O7: GFMUL only responds. -/
theorem gfmulAnswersTheProduct : Obligations.GfmulAnswersTheProduct :=
  ⟨fun s _ => step_offer_cons_of_respond (o := .gfmul) rfl rfl (fun _ => rfl) s, fun _ _ _ => rfl⟩

end Sys2Proof.Machine
end

section
/-! ### The substitution engine: the statements of spec/42_sbox.md -/

namespace Sys2Proof.Machine

/-- Settles O10: SUBBYTE and INVSUBBYTE only respond, each with the entry its table holds for the byte
(R110, R111). -/
theorem subbyteCommandsAnswerTableEntries : Obligations.SubbyteCommandsAnswerTableEntries := by
  refine ⟨fun s p => ⟨?subbyte, ?invsubbyte⟩, fun _ _ => ⟨rfl, rfl⟩⟩
  case subbyte => exact step_offer_cons_of_respond (o := .subbyte) rfl rfl (fun _ => rfl) s
  case invsubbyte => exact step_offer_cons_of_respond (o := .invsubbyte) rfl rfl (fun _ => rfl) s

end Sys2Proof.Machine
end

section
/-! ### The key scheduler: the statements of spec/43_key_schedule.md -/

namespace Sys2Proof.Machine

/-! #### Words as bytes, and the two word functions -/

/-- Two words are equal when their four bytes are. -/
theorem word_ext {v w : Word} (h : ∀ j, byteOf v j = byteOf w j) : v = w := by
  rw [← packWord_byteOf v, ← packWord_byteOf w, h, h, h, h]

@[simp] theorem byteOf_rotWord (w : Word) (j : Fin 4) : byteOf (rotWord w) j = byteOf w (j + 1) := by
  rw [rotWord, byteOf_packWord]
  fin_cases j <;> rfl

@[simp] theorem byteOf_subWord (w : Word) (j : Fin 4) : byteOf (subWord w) j = sbox (byteOf w j) := by
  rw [subWord, byteOf_packWord]
  fin_cases j <;> rfl

/-- Four rotations by one byte move each byte four positions, which is none. -/
theorem rotWord_four (w : Word) : rotWord (rotWord (rotWord (rotWord w))) = w :=
  word_ext fun j => by
    have hj : j + 1 + 1 + 1 + 1 = j := by omega
    simp only [byteOf_rotWord, hj]

/-- The low three bytes are adjacent bits of the word. -/
theorem rotWord_eq_append (w : Word) : rotWord w = w.extractLsb' 0 24 ++ w.extractLsb' 24 8 := by
  have low : byteOf w 1 ++ byteOf w 2 ++ byteOf w 3 = w.extractLsb' 0 24 := by
    have h12 : byteOf w 1 ++ byteOf w 2 = w.extractLsb' 8 16 :=
      BitVec.extractLsb'_append_extractLsb'_eq_extractLsb' rfl
    rw [h12]
    exact BitVec.extractLsb'_append_extractLsb'_eq_extractLsb' rfl
  rw [rotWord, packWord, low]
  rfl

theorem rotWord_eq_shift (w : Word) : rotWord w = (w <<< 8) ||| (w >>> 24) := by
  rw [rotWord_eq_append, BitVec.shiftLeft_eq_concat_of_lt (by decide),
    BitVec.ushiftRight_eq_extractLsb'_of_lt (by decide)]
  have h := BitVec.or_append (x₁ := w.extractLsb' 0 24) (x₂ := 0#24) (y₁ := 0#8) (y₂ := w.extractLsb' 24 8)
  rw [BitVec.or_zero, BitVec.zero_or] at h
  exact h.symm

/-- Settles O19, byte by byte: rotating moves byte `j + 1` to `j` and substituting leaves each byte in
place, so neither sees the other. -/
theorem rotWordAndSubWordOnBytes : Obligations.RotWordAndSubWordOnBytes :=
  ⟨rotWord_eq_shift, fun _ => rfl, rotWord_four, byteOf_subWord, fun _ => word_ext fun _ => by simp⟩

/-! #### The words of an expanded key -/

theorem expandKey_key_word (key : Block) (i : Fin 4) : (expandKey key)[i.val] =
    packWord key[gridIndex 0 i] key[gridIndex 1 i] key[gridIndex 2 i] key[gridIndex 3 i] :=
  (expandKey_eq_expandWords key 0 (by decide) i (by omega)).trans (ofFn_getFin _ i)

/-- Settles O15: the first four words are the key's, and the recurrence is the invariant's, word `n + 4` of
`scheduleHolds` being word `i` of the rule. -/
theorem expandKeyFollowsTheRecurrence : Obligations.ExpandKeyFollowsTheRecurrence := by
  refine fun key => ⟨fun i => ?_, fun i hi => ?_⟩
  · rw [expandKey_key_word]
    simp [gridIndex, Nat.add_comm]
  · obtain ⟨n, rfl⟩ := Nat.exists_eq_add_of_le' hi.1
    exact scheduleHolds_expandKey key ⟨n, by omega⟩

/-! #### One round key determines the others -/

/-- Round key `0` of an expanded key, byte by byte. -/
theorem byteOf_expandKey (key : Block) (c r : Fin 4) :
    byteOf (expandKey key)[c.val] r = key[gridIndex r c] := by
  rw [expandKey_key_word, byteOf_packWord]
  fin_cases r <;> rfl

theorem roundKeyBytes_expandKey_zero (key : Block) : roundKeyBytes (roundKey (expandKey key) 0) = key :=
  block_ext fun i => by
    rw [roundKeyBytes_get, roundKey_get]
    simp [byteOf_expandKey]

/-- Two word files agree on the four consecutive words from word `m` on, which is all that the recurrence
needs in either direction. -/
def AgreeFrom (w w' : ExpandedKey) (m : Nat) (hm : m ≤ 40) : Prop :=
  w[m] = w'[m] ∧ w[m + 1] = w'[m + 1] ∧ w[m + 2] = w'[m + 2] ∧ w[m + 3] = w'[m + 3]

section

variable {w w' : ExpandedKey} (hw : scheduleHolds w) (hw' : scheduleHolds w')
include hw hw'

/-- The recurrence runs forwards and, since XOR is its own inverse, backwards. -/
theorem agreeFrom_succ_iff (n : Fin 40) :
    AgreeFrom w w' (n.val + 1) n.isLt ↔ AgreeFrom w w' n.val n.isLt.le := by
  constructor
  · rintro ⟨h1, h2, (h3 : w[n.val + 3] = w'[n.val + 3]), (h4 : w[n.val + 4] = w'[n.val + 4])⟩
    rw [hw, hw', h3, BitVec.xor_left_inj] at h4
    exact ⟨h4, h1, h2, h3⟩
  · rintro ⟨h0, h1, h2, h3⟩
    have h4 : w[n.val + 4] = w'[n.val + 4] := by rw [hw, hw', h0, h3]
    exact ⟨h1, h2, h3, h4⟩

theorem agreeFrom_iff_zero (m : Nat) (hm : m ≤ 40) : AgreeFrom w w' m hm ↔ AgreeFrom w w' 0 (by omega) := by
  induction m with
  | zero => rfl
  | succ m ih => exact (agreeFrom_succ_iff hw hw' ⟨m, hm⟩).trans (ih _)

theorem eq_of_agreeFrom {m : Nat} {hm : m ≤ 40} (h : AgreeFrom w w' m hm) : w = w' := by
  have all (n : Nat) (hn : n ≤ 40) : AgreeFrom w w' n hn :=
    (agreeFrom_iff_zero hw hw' n hn).mpr ((agreeFrom_iff_zero hw hw' m hm).mp h)
  refine Vector.ext fun i hi => ?_
  obtain hle | hgt := le_or_gt i 40
  · exact (all i hle).1
  · obtain ⟨-, h41, h42, h43⟩ := all 40 le_rfl
    obtain rfl | rfl | rfl : i = 41 ∨ i = 42 ∨ i = 43 := by omega
    exacts [h41, h42, h43]

end

theorem agreeFrom_of_roundKey_eq {w w' : ExpandedKey} {k : Fin 11} (h : roundKey w k = roundKey w' k) :
    AgreeFrom w w' (4 * k.val) (by omega) := by
  have word (c : Fin 4) : w[4 * k.val + c.val] = w'[4 * k.val + c.val] := by
    rw [← roundKey_get, h, roundKey_get]
  exact ⟨word 0, word 1, word 2, word 3⟩

/-- Settles O16: round key 0 gives the key back, so different keys have different words; any round key
gives all the words by running the recurrence both ways. -/
theorem roundKeysDetermineEachOther : Obligations.RoundKeysDetermineEachOther := by
  refine ⟨roundKeyBytes_expandKey_zero, fun key key' h => ?_, fun w w' k hw hw' h => ?_,
    fun _ _ => ⟨_, rfl, rfl⟩⟩
  · rw [← roundKeyBytes_expandKey_zero key, h, roundKeyBytes_expandKey_zero]
  · exact eq_of_agreeFrom hw hw' (agreeFrom_of_roundKey_eq h)

/-! #### EXPANDKEY -/

/-- Settles O14: the length is the decoder's check, and sixteen bytes are the encoding of the command. -/
theorem expandkeyLoadsTheExpandedKey : Obligations.ExpandkeyLoadsTheExpandedKey := by
  refine ⟨fun s p hp => ?_, fun s key => ?_, fun _ _ => rfl⟩
  · exact (step_offer_cons (o := .expandkey) rfl rfl s).trans (if_pos hp)
  · exact step_offer_ok (decodeEncodeRoundTrip (.expandkey key) rfl) s

/-! #### RDRK -/

theorem execRdrk_of_toNat_eq {k : Byte} {j : Fin 11} (hk : k.toNat = j.val) (s : State) : execRdrk k s =
    withKey s fun w => respond (blockBytes (roundKeyBytes (roundKey w j))) s := by
  rw [execRdrk, hk, roundNumber_of_lt j.isLt]

theorem execRdrk_of_ge {k : Byte} (hk : 11 ≤ k.toNat) (s : State) :
    execRdrk k s = raise .invalidRoundIndex s := by
  rw [execRdrk, roundNumber_of_ge hk]

theorem step_offer_rdrk (s : State) (p : List Byte) : step (s.offer (0x31 :: p)) =
    if p.length ≠ 1 then .next (s.answered [0x03])
    else execRdrk (p.getD 0 0) { s with resetLine := false } :=
  step_offer_cons (o := .rdrk) rfl rfl s

theorem roundKeyBytes_gridIndex (rk : RoundKey) (r c : Fin 4) :
    (roundKeyBytes rk)[gridIndex r c] = byteOf rk[c] r := by
  simp only [roundKeyBytes_get, rowOf_gridIndex, colOf_gridIndex]

/-- Settles O17: the decoder checks the length, then the command checks the index and then the key. -/
theorem rdrkReadsARoundKey : Obligations.RdrkReadsARoundKey := by
  refine ⟨fun s p => ?step, fun k s w hw => ?exec, fun w k c r => ?bytes⟩
  case step =>
    rw [step_offer_rdrk]
    by_cases hp : p.length ≠ 1
    · rw [if_pos hp, if_pos hp]
    rw [if_neg hp, if_neg hp]
    by_cases hk : (p.getD 0 0).toNat < 11
    · rw [dif_pos hk, execRdrk_of_toNat_eq (j := ⟨_, hk⟩) rfl]
      obtain ⟨_, _ | _, _, _, _, _, _⟩ := s <;> rfl
    · rw [dif_neg hk, execRdrk_of_ge (Nat.le_of_not_lt hk)]
      rfl
  case exec =>
    have hk : (BitVec.ofNat 8 k.val).toNat = k.val := Nat.mod_eq_of_lt (by omega)
    exact (execRdrk_of_toNat_eq hk s).trans (withKey_some hw _)
  case bytes =>
    rw [← roundKey_get, ← roundKeyBytes_gridIndex]
    simp only [gridIndex, Fin.getElem_fin, Nat.add_comm]

/-! #### ROTWORD and SUBWORD -/

theorem wordBytes_rotWord (w : Word) :
    wordBytes (rotWord w) = [byteOf w 1, byteOf w 2, byteOf w 3, byteOf w 0] := by
  simp [wordBytes]

theorem wordBytes_subWord (w : Word) : wordBytes (subWord w) = (wordBytes w).map sbox := by
  simp [wordBytes]

theorem step_offer_rotword (s : State) (p : List Byte) : step (s.offer (0x32 :: p)) = .next (s.answered
    (if p.length ≠ 4 then [0x03] else 0x00 :: wordBytes (rotWord (payloadWord p)))) :=
  step_offer_cons_of_respond (o := .rotword) rfl rfl (fun _ => rfl) s

theorem step_offer_subword (s : State) (p : List Byte) : step (s.offer (0x33 :: p)) = .next (s.answered
    (if p.length ≠ 4 then [0x03] else 0x00 :: wordBytes (subWord (payloadWord p)))) :=
  step_offer_cons_of_respond (o := .subword) rfl rfl (fun _ => rfl) s

/-- Settles O18: both commands only respond, with the bytes of the rotated or the substituted word. -/
theorem wordCommandsRotateAndSubstitute : Obligations.WordCommandsRotateAndSubstitute := by
  refine ⟨fun s p hp => ⟨?_, ?_⟩, fun s b0 b1 b2 b3 => ⟨?_, ?_⟩, fun w s => ⟨?_, ?_⟩⟩
  · rw [step_offer_rotword, if_pos hp]
  · rw [step_offer_subword, if_pos hp]
  · rw [step_offer_rotword]
    simp [wordBytes_rotWord, payloadWord, payloadByte, byteOf_packWord]
  · rw [step_offer_subword, wordBytes_subWord, wordBytes_payloadWord rfl]
    rfl
  · exact congrArg (fun r => respond r s) (wordBytes_rotWord w)
  · exact congrArg (fun r => respond r s) (wordBytes_subWord w)

end Sys2Proof.Machine
end

section
/-! ### The round transform: the statements of spec/44_round_transform.md -/

namespace Sys2Proof.Machine

/-! #### Sums over a column -/

/-- The field sum of four terms, one for each row of a column (spec/44_round_transform.md R155, R156). -/
def columnSum (f : Fin 4 → Byte) : Byte := f 0 ^^^ f 1 ^^^ f 2 ^^^ f 3

theorem mixWith_get_columnSum (m : Vector Byte 4) (s : Block) (i : Fin 16) :
    (mixWith m s)[i] = columnSum fun j => gmul m[j - rowOf i] s[gridIndex j (colOf i)] :=
  mixWith_get m s i

theorem columnSum_xor (f g : Fin 4 → Byte) :
    columnSum (fun j => f j ^^^ g j) = columnSum f ^^^ columnSum g := by
  simp only [columnSum]
  ac_rfl

theorem columnSum_comm (f : Fin 4 → Fin 4 → Byte) :
    columnSum (fun j => columnSum fun k => f j k) = columnSum fun k => columnSum fun j => f j k := by
  simp only [columnSum]
  ac_rfl

/-- A sum with one term. -/
theorem columnSum_ite_eq (f : Fin 4 → Byte) (r : Fin 4) :
    columnSum (fun j => if j = r then f j else 0) = f r := by
  fin_cases r <;> simp [columnSum]

theorem gmul_columnSum (a : Byte) (f : Fin 4 → Byte) :
    gmul a (columnSum f) = columnSum fun j => gmul a (f j) := by
  simp only [columnSum, gmul_xor_right]

theorem columnSum_gmul (f : Fin 4 → Byte) (a : Byte) :
    gmul (columnSum f) a = columnSum fun j => gmul (f j) a := by
  simp only [columnSum, gmul_xor_left]

/-- Starting the sum at another row, and wrapping around, only reorders its terms. -/
theorem columnSum_add_right (f : Fin 4 → Byte) (r : Fin 4) :
    columnSum (fun j => f (j + r)) = columnSum f := by
  fin_cases r
  · rfl
  · change f 1 ^^^ f 2 ^^^ f 3 ^^^ f 0 = f 0 ^^^ f 1 ^^^ f 2 ^^^ f 3
    ac_rfl
  · change f 2 ^^^ f 3 ^^^ f 0 ^^^ f 1 = f 0 ^^^ f 1 ^^^ f 2 ^^^ f 3
    ac_rfl
  · change f 3 ^^^ f 0 ^^^ f 1 ^^^ f 2 = f 0 ^^^ f 1 ^^^ f 2 ^^^ f 3
    ac_rfl

/-! #### Mixing twice is mixing with the product -/

/-- The first row of the product of the circulant matrices with first rows `m` and `m'`. -/
def circulantMul (m m' : Vector Byte 4) : Vector Byte 4 :=
  Vector.ofFn fun d => columnSum fun j => gmul m[j] m'[d - j]

theorem circulantMul_get (m m' : Vector Byte 4) (d : Fin 4) :
    (circulantMul m m')[d] = columnSum fun j => gmul m[j] m'[d - j] := ofFn_getFin _ d

/-- The entry of the product in row `r`, column `k`, as the product of row `r` and column `k`. -/
theorem columnSum_row_column (m m' : Vector Byte 4) (r k : Fin 4) :
    (columnSum fun j => gmul m[j - r] m'[k - j]) = (circulantMul m m')[k - r] := by
  rw [circulantMul_get, ← columnSum_add_right (fun j => gmul m[j - r] m'[k - j]) r]
  simp only [add_sub_cancel_right, sub_add_eq_sub_sub_swap]

theorem mixWith_mixWith (m m' : Vector Byte 4) (s : Block) :
    mixWith m (mixWith m' s) = mixWith (circulantMul m m') s := by
  refine block_ext fun i => ?_
  simp only [mixWith_get_columnSum, rowOf_gridIndex, colOf_gridIndex, gmul_columnSum, ← gmul_assoc,
    ← columnSum_row_column, columnSum_gmul]
  exact columnSum_comm _

/-- Mixing with the identity matrix. -/
theorem mixWith_one (s : Block) : mixWith #v[1, 0, 0, 0] s = s := by
  have entry : ∀ r j : Fin 4, (#v[1, 0, 0, 0] : Vector Byte 4)[j - r] = if j = r then 1 else 0 := by decide
  refine block_ext fun i => ?_
  have term (j : Fin 4) : gmul #v[1, 0, 0, 0][j - rowOf i] s[gridIndex j (colOf i)] =
      if j = rowOf i then s[gridIndex j (colOf i)] else 0 := by
    rw [entry]
    split
    · exact one_gmul _
    · exact zero_gmul _
  simp only [mixWith_get_columnSum, term, columnSum_ite_eq, gridIndex_rowOf_colOf]

theorem invMixColumns_mixColumns (s : Block) : invMixColumns (mixColumns s) = s := by
  have product : circulantMul #v[14, 11, 13, 9] #v[2, 3, 1, 1] = #v[1, 0, 0, 0] := by decide
  rw [invMixColumns, mixColumns, mixWith_mixWith, product, mixWith_one]

theorem mixColumns_invMixColumns (s : Block) : mixColumns (invMixColumns s) = s := by
  have product : circulantMul #v[2, 3, 1, 1] #v[14, 11, 13, 9] = #v[1, 0, 0, 0] := by decide
  rw [invMixColumns, mixColumns, mixWith_mixWith, product, mixWith_one]

/-! #### The other functions and their inverses -/

theorem invSubBytes_subBytes (s : Block) : invSubBytes (subBytes s) = s :=
  block_ext fun i => by rw [invSubBytes_get, subBytes_get, isbox_sbox]

theorem subBytes_invSubBytes (s : Block) : subBytes (invSubBytes s) = s :=
  block_ext fun i => by rw [subBytes_get, invSubBytes_get, sbox_isbox]

theorem invShiftRows_shiftRows (s : Block) : invShiftRows (shiftRows s) = s :=
  block_ext fun i => by
    simp only [invShiftRows_get, shiftRows_get, rowOf_gridIndex, colOf_gridIndex, sub_add_cancel,
      gridIndex_rowOf_colOf]

theorem shiftRows_invShiftRows (s : Block) : shiftRows (invShiftRows s) = s :=
  block_ext fun i => by
    simp only [shiftRows_get, invShiftRows_get, rowOf_gridIndex, colOf_gridIndex, add_sub_cancel_right,
      gridIndex_rowOf_colOf]

theorem addRoundKey_addRoundKey (s : Block) (rk : RoundKey) : addRoundKey (addRoundKey s rk) rk = s :=
  block_ext fun i => by
    rw [addRoundKey_get, addRoundKey_get, BitVec.xor_assoc, BitVec.xor_self, BitVec.xor_zero]

/-- Settles O25: the tables undo each other entry by entry, the row shifts cancel, and the product of the
two mixing matrices is the identity in either order. -/
theorem roundFunctionsUndoEachOther : Obligations.RoundFunctionsUndoEachOther := fun b =>
  ⟨invSubBytes_subBytes b, subBytes_invSubBytes b, invShiftRows_shiftRows b, shiftRows_invShiftRows b,
    invMixColumns_mixColumns b, mixColumns_invMixColumns b, addRoundKey_addRoundKey b⟩

/-! #### What commutes -/

theorem shiftRows_subBytes (s : Block) : shiftRows (subBytes s) = subBytes (shiftRows s) :=
  block_ext fun i => by rw [shiftRows_get, subBytes_get, subBytes_get, shiftRows_get]

theorem invShiftRows_invSubBytes (s : Block) : invShiftRows (invSubBytes s) = invSubBytes (invShiftRows s) :=
  block_ext fun i => by rw [invShiftRows_get, invSubBytes_get, invSubBytes_get, invShiftRows_get]

/-- Mixing is linear: the round key can be mixed on its own (spec/44_round_transform.md R158 (b)). -/
theorem mixWith_addRoundKey_get (m : Vector Byte 4) (s : Block) (rk : RoundKey) (i : Fin 16) :
    (mixWith m (addRoundKey s rk))[i] = (mixWith m s)[i] ^^^ (mixWith m (roundKeyBytes rk))[i] := by
  simp only [mixWith_get_columnSum, addRoundKey_get_bytes, gmul_xor_right, columnSum_xor]

/-- The block with 1 in row 0 of column 0 and 0 in every other lane. -/
def oneLane : Block := #v[1, 0, 0, 0, 0, 0, 0, 0, 0, 0, 0, 0, 0, 0, 0, 0]

/-- The round key whose bytes are `oneLane`. -/
def oneLaneKey : RoundKey := #v[0x01000000, 0, 0, 0]

/-- Settles O26. Substitution does not see positions, and mixing is linear. Mixing spreads the one lane of
`oneLane` or `oneLaneKey` down column 0: it changes a key added before it, to the zero block, and not one
added after it, and a row shift scatters the column only where it comes after the mixing. -/
theorem whichRoundFunctionsCommute : Obligations.WhichRoundFunctionsCommute :=
  ⟨fun b => ⟨shiftRows_subBytes b, invShiftRows_invSubBytes b⟩,
    ⟨Vector.replicate 16 0, oneLaneKey, by decide⟩,
    ⟨Vector.replicate 16 0, oneLaneKey, by decide⟩,
    mixWith_addRoundKey_get _, ⟨oneLane, by decide⟩⟩

/-! #### LDSTATE and RDSTATE -/

theorem step_offer_rdstate (s : State) (p : List Byte) : step (s.offer (0x41 :: p)) =
    if p.length ≠ 0 then .next (s.answered [0x03]) else execRdstate { s with resetLine := false } :=
  step_offer_cons (o := .rdstate) rfl rfl s

/-- Settles O20: LDSTATE is the decoder's length check and one write; RDSTATE checks the length, then the
state. -/
theorem ldstateAndRdstateMoveTheBlock : Obligations.LdstateAndRdstateMoveTheBlock := by
  refine ⟨fun s p hp => ?_, fun s b => ?_, fun s p => ?_, fun _ _ => rfl, fun b s hb => withState_some hb _⟩
  · exact (step_offer_cons (o := .ldstate) rfl rfl s).trans (if_pos hp)
  · exact step_offer_ok (decodeEncodeRoundTrip (.ldstate b) rfl) s
  · rw [step_offer_rdstate]
    split
    · rfl
    · split
      · next hb => exact withState_none (s := { s with resetLine := false }) hb _
      · next b hb => exact withState_some (s := { s with resetLine := false }) hb _

/-! #### The commands that rewrite S -/

/-- A command that rewrites S by `g` is answered with its length status, with NO_STATE, or with OK and `g`
applied to the old block; nothing else changes. -/
theorem step_offer_cons_of_transformState {op : Byte} {o : Op} {p : List Byte} {g : Block → Block}
    (ho : selectOp op = some o) (hk : roundOutOfRange o op = false)
    (hexec : ∀ s, exec (formCommand o op p) s = transformState g s) (s : State) :
    step (s.offer (op :: p)) = .next (
      if p.length ≠ o.row.payload then s.answered [statusCode o.lengthStatus]
      else match s.S with
        | none => s.answered [0x05]
        | some b => { s with S := some (g b) }.answered [0x00]) := by
  rw [step_offer_cons ho hk, hexec]
  split
  · rfl
  · split
    · next hb => exact transformState_none (s := { s with resetLine := false }) hb g
    · next b hb => exact transformState_some (s := { s with resetLine := false }) hb g

/-- Settles O21: both commands rewrite S, by functions that look up each lane on its own. -/
theorem subbytesSubstitutesEveryLane : Obligations.SubbytesSubstitutesEveryLane := by
  refine ⟨fun s p => ⟨?subbytes, ?invsubbytes⟩,
    fun s b hb => ⟨transformState_some hb subBytes, transformState_some hb invSubBytes⟩,
    fun b i => ⟨subBytes_get b i, invSubBytes_get b i⟩⟩
  case subbytes => exact step_offer_cons_of_transformState (o := .subbytes) rfl rfl (fun _ => rfl) s
  case invsubbytes => exact step_offer_cons_of_transformState (o := .invsubbytes) rfl rfl (fun _ => rfl) s

/-- The rule's table of SHIFTROWS, entry by entry (spec/44_round_transform.md R153). -/
theorem shiftRows_source : ∀ i : Fin 16, gridIndex (rowOf i) (colOf i + rowOf i) =
    (#v[0, 5, 10, 15, 4, 9, 14, 3, 8, 13, 2, 7, 12, 1, 6, 11] : Vector (Fin 16) 16)[i] := by decide

/-- The rule's table of INVSHIFTROWS, entry by entry (spec/44_round_transform.md R154). -/
theorem invShiftRows_source : ∀ i : Fin 16, gridIndex (rowOf i) (colOf i - rowOf i) =
    (#v[0, 13, 10, 7, 4, 1, 14, 11, 8, 5, 2, 15, 12, 9, 6, 3] : Vector (Fin 16) 16)[i] := by decide

/-- Settles O22: both commands rewrite S, by functions that read the lanes the tables name. -/
theorem shiftrowsPermutesTheLanes : Obligations.ShiftrowsPermutesTheLanes := by
  refine ⟨fun s p => ⟨?shiftrows, ?invshiftrows⟩,
    fun s b hb => ⟨transformState_some hb shiftRows, transformState_some hb invShiftRows⟩, fun b i => ⟨?_, ?_⟩⟩
  case shiftrows => exact step_offer_cons_of_transformState (o := .shiftrows) rfl rfl (fun _ => rfl) s
  case invshiftrows => exact step_offer_cons_of_transformState (o := .invshiftrows) rfl rfl (fun _ => rfl) s
  · simp only [shiftRows_get, shiftRows_source]
  · simp only [invShiftRows_get, invShiftRows_source]

/-- Lane `r` of column `c` after mixing, in the flat indices of R155 and R156. -/
theorem mixWith_get_column (m : Vector Byte 4) (s : Block) (c r : Fin 4) :
    (mixWith m s)[4 * c.val + r.val] =
      gmul m[0 - r] s[4 * c.val] ^^^ gmul m[1 - r] s[4 * c.val + 1] ^^^
        gmul m[2 - r] s[4 * c.val + 2] ^^^ gmul m[3 - r] s[4 * c.val + 3] := by
  have h := mixWith_get m s (gridIndex r c)
  simp only [rowOf_gridIndex, colOf_gridIndex] at h
  simpa [gridIndex, Nat.add_comm] using h

/-- Settles O23: the rows of the rules are the rows of the two circulant matrices, an entry 1 multiplying
by nothing. -/
theorem mixcolumnsMultipliesEveryColumn : Obligations.MixcolumnsMultipliesEveryColumn := by
  refine ⟨fun s p => ⟨?mixcolumns, ?invmixcolumns⟩,
    fun s b hb => ⟨transformState_some hb mixColumns, transformState_some hb invMixColumns⟩, fun b c => ?rows⟩
  case mixcolumns => exact step_offer_cons_of_transformState (o := .mixcolumns) rfl rfl (fun _ => rfl) s
  case invmixcolumns => exact step_offer_cons_of_transformState (o := .invmixcolumns) rfl rfl (fun _ => rfl) s
  case rows =>
    have mix := mixWith_get_column #v[2, 3, 1, 1] b c
    have inv := mixWith_get_column #v[14, 11, 13, 9] b c
    refine ⟨(mix 0).trans ?_, (mix 1).trans ?_, (mix 2).trans ?_, (mix 3).trans ?_, inv 0, inv 1, inv 2, inv 3⟩
    · change gmul 2 _ ^^^ gmul 3 _ ^^^ gmul 1 _ ^^^ gmul 1 _ = _
      rw [one_gmul, one_gmul]
    · change gmul 1 _ ^^^ gmul 2 _ ^^^ gmul 3 _ ^^^ gmul 1 _ = _
      rw [one_gmul, one_gmul]
    · change gmul 1 _ ^^^ gmul 1 _ ^^^ gmul 2 _ ^^^ gmul 3 _ = _
      rw [one_gmul, one_gmul]
    · change gmul 3 _ ^^^ gmul 1 _ ^^^ gmul 1 _ ^^^ gmul 2 _ = _
      rw [one_gmul, one_gmul]

/-! #### ADDROUNDKEY -/

theorem execAddroundkey_of_toNat_eq {k : BitVec 4} {j : Fin 11} (hk : k.toNat = j.val) (s : State) :
    execAddroundkey k s = withKey s fun w => transformState (fun b => addRoundKey b (roundKey w j)) s := by
  rw [execAddroundkey, hk, roundNumber_of_lt j.isLt]

/-- The legal opcodes of ADDROUNDKEY select its row and hold the round number (spec/30_encoding.md R78), by
inspection of the eleven bytes. -/
theorem addroundkey_opcode : ∀ k : Fin 11,
    selectOp (0x50 + BitVec.ofNat 8 k.val) = some .addroundkey ∧
      roundOutOfRange .addroundkey (0x50 + BitVec.ofNat 8 k.val) = false ∧
      (opcodeRound (0x50 + BitVec.ofNat 8 k.val)).toNat = k.val := by decide

theorem step_offer_addroundkey (s : State) (p : List Byte) (k : Fin 11) :
    step (s.offer ((0x50 + BitVec.ofNat 8 k.val) :: p)) =
      if p.length ≠ 0 then .next (s.answered [0x03])
      else withKey { s with resetLine := false } fun w =>
        transformState (fun b => addRoundKey b (roundKey w k)) { s with resetLine := false } := by
  obtain ⟨selected, inRange, round⟩ := addroundkey_opcode k
  rw [← execAddroundkey_of_toNat_eq round]
  exact step_offer_cons selected inRange s

/-- Settles O24: the decoder rejects a round number above 10 and then a payload; the command then checks
the key and the state. -/
theorem addroundkeyXorsTheRoundKey : Obligations.AddroundkeyXorsTheRoundKey := by
  refine ⟨fun s p k => ?step, fun s p k h11 h15 => ?illegal, fun k s w b hw hb => ?exec, fun b rk r c => ?lane,
    addRoundKey_addRoundKey, roundKey_get⟩
  case step =>
    rw [step_offer_addroundkey]
    split
    · rfl
    · split
      · next hw => exact withKey_none (s := { s with resetLine := false }) hw _
      · next hw hb =>
        rw [withKey_some (s := { s with resetLine := false }) hw]
        exact transformState_none (s := { s with resetLine := false }) hb _
      · next hw hb =>
        rw [withKey_some (s := { s with resetLine := false }) hw]
        exact transformState_some (s := { s with resetLine := false }) hb _
  case illegal =>
    have illegal : ∀ k : Fin 16, 11 ≤ k.val → 0x50 + BitVec.ofNat 8 k.val ∉ legalOpcodes := by decide
    have hk := illegal ⟨k, by omega⟩ h11
    exact step_offer_error (decode_cons_illegalOpcode_iff_not_mem.mpr hk) s
  case exec =>
    have hk : (BitVec.ofNat 4 k.val).toNat = k.val := Nat.mod_eq_of_lt (by omega)
    exact (execAddroundkey_of_toNat_eq hk s).trans ((withKey_some hw _).trans (transformState_some hb _))
  case lane =>
    have h := addRoundKey_get b rk (gridIndex r c)
    simp only [rowOf_gridIndex, colOf_gridIndex] at h
    simpa [gridIndex] using h

end Sys2Proof.Machine
end

section
/-! ### The block cipher: the statements of spec/45_block_cipher.md -/

namespace Sys2Proof.Machine

variable {w : ExpandedKey}

/-! #### The two ciphers as functions of the key and the block -/

/-- The round keys of the middle positions, in the order ENCRYPT uses them (spec/45_block_cipher.md R172). -/
def middleRounds : List (Fin 11) := [1, 2, 3, 4, 5, 6, 7, 8, 9]

/-- A middle position of ENCRYPT (spec/45_block_cipher.md R172). -/
def fullRound (w : ExpandedKey) (b : Block) (p : Fin 11) : Block :=
  addRoundKey (mixColumns (shiftRows (subBytes b))) (roundKey w p)

/-- A middle position of DECRYPT (spec/45_block_cipher.md R175). -/
def invFullRound (w : ExpandedKey) (b : Block) (p : Fin 11) : Block :=
  invSubBytes (invShiftRows (invMixColumns (addRoundKey b (roundKey w p))))

/-- What ENCRYPT computes (spec/45_block_cipher.md R172); `runEncrypt_block` ties it to the sequencer. -/
def encryptBlock (w : ExpandedKey) (b : Block) : Block :=
  addRoundKey (shiftRows (subBytes
    (middleRounds.foldl (fullRound w) (addRoundKey b (roundKey w 0))))) (roundKey w 10)

/-- What DECRYPT computes (spec/45_block_cipher.md R175); `runDecrypt_block` ties it to the sequencer. -/
def decryptBlock (w : ExpandedKey) (b : Block) : Block :=
  addRoundKey
    (middleRounds.reverse.foldl (invFullRound w)
      (invSubBytes (invShiftRows (addRoundKey b (roundKey w 10))))) (roundKey w 0)

/-! #### The sequencer's run -/

/-- Settles O29: SEQ moves by the `next` column alone, whose eleven entries from either start are
inspected. -/
theorem sequencerVisitsElevenPositions : Obligations.SequencerVisitsElevenPositions := by
  intro w b
  have visits : ∀ n : Fin 11, nextPosition^[n.val] (.enc 0) = .enc n ∧
      nextPosition^[n.val] (.dec 10) = .dec (10 - n) := by decide
  simp only [runPositions_seq]
  exact ⟨visits, runEncrypt_seq w b, runDecrypt_seq w b⟩

/-- A run performs on S, one after another, the positions that SEQ visits. -/
theorem runPositions_block (w : ExpandedKey) (n : Nat) (x : Sequencer × Block) :
    (runPositions w n x).2 =
      (List.iterate nextPosition x.1 n).foldl (fun b pos => performPosition w pos b) x.2 := by
  induction n generalizing x with
  | zero => rfl
  | succ n ih => exact ih _

theorem ne_of_mem_middleRounds : ∀ p ∈ middleRounds, p ≠ 0 ∧ p ≠ 10 := by decide

theorem performPosition_enc_middle (b : Block) {p : Fin 11} (hp : p ∈ middleRounds) :
    performPosition w (.enc p) b = fullRound w b p := by
  obtain ⟨ne_zero, ne_ten⟩ := ne_of_mem_middleRounds p hp
  rw [performPosition, if_neg ne_zero, if_neg ne_ten, fullRound]

theorem performPosition_dec_middle (b : Block) {p : Fin 11} (hp : p ∈ middleRounds) :
    performPosition w (.dec p) b = invFullRound w b p := by
  obtain ⟨ne_zero, ne_ten⟩ := ne_of_mem_middleRounds p hp
  rw [performPosition, if_neg ne_zero, if_neg ne_ten, invFullRound]

theorem runEncrypt_block (w : ExpandedKey) (b : Block) : (runEncrypt w b).2 = encryptBlock w b := by
  have visited : List.iterate nextPosition (.enc 0) 11 = .enc 0 :: (middleRounds.map .enc ++ [.enc 10]) := by
    decide
  rw [runEncrypt, runPositions_block, visited, List.foldl_cons, List.foldl_append, List.foldl_map,
    List.foldl_ext _ (fullRound w) _ fun x _ => performPosition_enc_middle x]
  rfl

theorem runDecrypt_block (w : ExpandedKey) (b : Block) : (runDecrypt w b).2 = decryptBlock w b := by
  have visited : List.iterate nextPosition (.dec 10) 11 =
      .dec 10 :: (middleRounds.reverse.map .dec ++ [.dec 0]) := by
    decide
  rw [runDecrypt, runPositions_block, visited, List.foldl_cons, List.foldl_append, List.foldl_map,
    List.foldl_ext _ (invFullRound w) _ fun x _ hp => performPosition_dec_middle x (List.mem_reverse.mp hp)]
  rfl

/-! #### The two block commands -/

/-- The command `i` checks the key and then answers with a function `f` of W, leaving S without value and
SEQ at IDLE. -/
def AnswersBlock (i : Instr) (f : ExpandedKey → Block) : Prop :=
  ∀ s, exec i s = withKey s fun w => respond (blockBytes (f w)) { s with S := none, SEQ := .idle }

theorem answersBlock_encrypt (b : Block) : AnswersBlock (.encrypt b) (encryptBlock · b) := fun s => by
  simp only [exec, execEncrypt, finishBlock, runEncrypt_seq, runEncrypt_block]

theorem answersBlock_decrypt (b : Block) : AnswersBlock (.decrypt b) (decryptBlock · b) := fun s => by
  simp only [exec, execDecrypt, finishBlock, runDecrypt_seq, runDecrypt_block]

section
variable {i : Instr} {f : ExpandedKey → Block} {s : State}

theorem AnswersBlock.exec_of_key (h : AnswersBlock i f) (hw : s.W = some w) : exec i s = .next { s with
    S := none, SEQ := .idle, responses := s.responses ++ [0x00 :: (f w).toList] } :=
  (h s).trans (withKey_some hw _)

theorem AnswersBlock.exec_of_no_key (h : AnswersBlock i f) (hw : s.W = none) :
    exec i s = raise .noKey s :=
  (h s).trans (withKey_none hw _)

theorem AnswersBlock.step_offer (h : AnswersBlock i f) (hi : i.wellFormed = true) (s : State) :
    step (s.offer (encode i)) = .next (
      match s.W with
      | none => s.answered [0x04]
      | some w => { s with S := none, SEQ := .idle }.answered (0x00 :: (f w).toList)) := by
  rw [step_offer_ok (decodeEncodeRoundTrip i hi)]
  split
  · next hw => exact h.exec_of_no_key (s := { s with resetLine := false }) hw
  · next w hw => exact h.exec_of_key (s := { s with resetLine := false }) hw

end

/-- Settles O27: the length is the decoder's check, and the command then runs the eleven forward
positions. -/
theorem encryptRunsTheForwardRounds : Obligations.EncryptRunsTheForwardRounds := by
  refine ⟨fun s p hp => ?_, fun s b => ?_, fun b s w hw => ?_⟩
  · exact (step_offer_cons (o := .encrypt) rfl rfl s).trans (if_pos hp)
  · exact (answersBlock_encrypt b).step_offer rfl s
  · exact (answersBlock_encrypt b).exec_of_key hw

/-- Settles O28: the length is the decoder's check, and the command then runs the eleven inverse
positions. -/
theorem decryptRunsTheInverseRounds : Obligations.DecryptRunsTheInverseRounds := by
  refine ⟨fun s p hp => ?_, fun s b => ?_, fun b s w hw => ?_⟩
  · exact (step_offer_cons (o := .decrypt) rfl rfl s).trans (if_pos hp)
  · exact (answersBlock_decrypt b).step_offer rfl s
  · exact (answersBlock_decrypt b).exec_of_key hw

/-- The response of a command that answers with `f` of W: NO_KEY, or OK and the block's bytes. -/
def blockAnswer (f : ExpandedKey → Block) : Option ExpandedKey → Frame
  | none => [0x04]
  | some w => 0x00 :: (f w).toList

theorem AnswersBlock.exec_response {i : Instr} {f : ExpandedKey → Block} (h : AnswersBlock i f) (s : State) :
    ∃ t, exec i s = .next t ∧ t.responses = s.responses ++ [blockAnswer f s.W] := by
  cases hw : s.W with
  | none => exact ⟨_, h.exec_of_no_key hw, rfl⟩
  | some w => exact ⟨_, h.exec_of_key hw, rfl⟩

/-- Settles O32: the function of W is `blockAnswer` of the cipher at the payload. -/
theorem blockAnswerDependsOnPayloadAndKeyAlone : Obligations.BlockAnswerDependsOnPayloadAndKeyAlone := by
  rintro b i (rfl | rfl)
  · exact ⟨_, (answersBlock_encrypt b).exec_response⟩
  · exact ⟨_, (answersBlock_decrypt b).exec_response⟩

/-! #### The ciphers undo each other -/

theorem invFullRound_fullRound (b : Block) (p : Fin 11) : invFullRound w (fullRound w b p) p = b := by
  rw [invFullRound, fullRound, addRoundKey_addRoundKey, invMixColumns_mixColumns, invShiftRows_shiftRows,
    invSubBytes_subBytes]

theorem fullRound_invFullRound (b : Block) (p : Fin 11) : fullRound w (invFullRound w b p) p = b := by
  rw [fullRound, invFullRound, subBytes_invSubBytes, shiftRows_invShiftRows, mixColumns_invMixColumns,
    addRoundKey_addRoundKey]

/-- Rounds are undone by undoing each of them, the last one first. -/
theorem foldl_reverse_foldl {α β : Type} {f g : α → β → α} (h : ∀ x p, g (f x p) p = x) (l : List β)
    (x : α) : l.reverse.foldl g (l.foldl f x) = x := by
  induction l generalizing x with
  | nil => rfl
  | cons p l ih =>
    rw [List.foldl_cons, List.reverse_cons, List.foldl_append, ih, List.foldl_cons, h, List.foldl_nil]

theorem decryptBlock_encryptBlock (w : ExpandedKey) (b : Block) : decryptBlock w (encryptBlock w b) = b := by
  rw [decryptBlock, encryptBlock, addRoundKey_addRoundKey, invShiftRows_shiftRows, invSubBytes_subBytes,
    foldl_reverse_foldl invFullRound_fullRound, addRoundKey_addRoundKey]

theorem encryptBlock_decryptBlock (w : ExpandedKey) (b : Block) : encryptBlock w (decryptBlock w b) = b := by
  have middle := foldl_reverse_foldl (fullRound_invFullRound (w := w)) middleRounds.reverse
  rw [List.reverse_reverse] at middle
  rw [encryptBlock, decryptBlock, addRoundKey_addRoundKey, middle, subBytes_invSubBytes,
    shiftRows_invShiftRows, addRoundKey_addRoundKey]

/-- Settles O30: each command answers with its cipher, and the ciphers undo each other. -/
theorem encryptAndDecryptAreInverse : Obligations.EncryptAndDecryptAreInverse := by
  intro s t w b hs ht
  refine ⟨⟨_, (answersBlock_encrypt b).exec_of_key hs, ?_⟩, ⟨_, (answersBlock_decrypt b).exec_of_key hs, ?_⟩⟩
  · have h := (answersBlock_decrypt (encryptBlock w b)).exec_of_key ht
    rwa [decryptBlock_encryptBlock] at h
  · have h := (answersBlock_encrypt (decryptBlock w b)).exec_of_key ht
    rwa [encryptBlock_decryptBlock] at h

/-! #### Sequences of single commands -/

/-- `s` with `b` in S and `n` more responses, each OK alone. -/
def State.computed (s : State) (n : Nat) (b : Block) : State :=
  { s with S := some b, responses := s.responses ++ List.replicate n [0x00] }

theorem State.computed_computed (s : State) (m n : Nat) (b c : Block) :
    (s.computed m b).computed n c = s.computed (m + n) c := by
  simp only [State.computed, List.append_assoc, List.replicate_add]

theorem State.computed_zero {s : State} {b : Block} (hb : s.S = some b) : s.computed 0 b = s := by
  simp only [State.computed, ← hb, List.replicate_zero, List.append_nil]

/-- Under the key `w` the commands replace a block in S by `g` of it, and each is answered OK alone. -/
def Computes (w : ExpandedKey) (is : List Instr) (g : Block → Block) : Prop :=
  ∀ (s : State) (b : Block), s.W = some w → s.S = some b → execAll is s = .next (s.computed is.length (g b))

theorem execAll_append {is : List Instr} {s t : State} (h : execAll is s = .next t) (js : List Instr) :
    execAll (is ++ js) s = execAll js t := by
  induction is generalizing s with
  | nil => cases h; rfl
  | cons i is ih =>
    simp only [execAll, List.cons_append] at h ⊢
    split at h
    · exact ih h
    · cases h
    · cases h

theorem computes_nil (w : ExpandedKey) : Computes w [] id := fun _ _ _ hb =>
  congrArg Host.Outcome.next (State.computed_zero hb).symm

section
variable {is js : List Instr} {g h : Block → Block}

theorem Computes.append (hg : Computes w is g) (hh : Computes w js h) :
    Computes w (is ++ js) fun b => h (g b) := by
  intro s b hw hb
  rw [execAll_append (hg s b hw hb), hh (s.computed is.length (g b)) (g b) hw rfl, State.computed_computed,
    List.length_append]

theorem computes_of_exec {i : Instr} (hi : ∀ s, s.W = some w → exec i s = transformState g s) :
    Computes w [i] g := by
  intro s b hw hb
  rw [execAll, hi s hw, transformState_some hb]
  rfl

theorem computes_flatMap {κ : Type} {steps : κ → List Instr} {f : Block → κ → Block}
    (h : ∀ k, Computes w (steps k) (f · k)) (ks : List κ) :
    Computes w (ks.flatMap steps) (ks.foldl f) := by
  induction ks with
  | nil => exact computes_nil w
  | cons k ks ih => exact (h k).append ih

end

theorem computes_addroundkey (p : Fin 11) :
    Computes w [.addroundkey (BitVec.ofNat 4 p.val)] (addRoundKey · (roundKey w p)) := by
  have hp : (BitVec.ofNat 4 p.val).toNat = p.val := Nat.mod_eq_of_lt (by omega)
  exact computes_of_exec fun s hw => (execAddroundkey_of_toNat_eq hp s).trans (withKey_some hw _)

theorem computes_subbytes : Computes w [.subbytes] subBytes := computes_of_exec fun _ _ => rfl

theorem computes_invsubbytes : Computes w [.invsubbytes] invSubBytes := computes_of_exec fun _ _ => rfl

theorem computes_shiftrows : Computes w [.shiftrows] shiftRows := computes_of_exec fun _ _ => rfl

theorem computes_invshiftrows : Computes w [.invshiftrows] invShiftRows := computes_of_exec fun _ _ => rfl

theorem computes_mixcolumns : Computes w [.mixcolumns] mixColumns := computes_of_exec fun _ _ => rfl

theorem computes_invmixcolumns : Computes w [.invmixcolumns] invMixColumns := computes_of_exec fun _ _ => rfl

theorem computes_roundSteps (p : Fin 11) : Computes w (roundSteps (BitVec.ofNat 4 p.val)) (fullRound w · p) :=
  (computes_subbytes.append (computes_shiftrows.append (computes_mixcolumns.append (computes_addroundkey p))) :)

theorem computes_finalRoundSteps :
    Computes w finalRoundSteps fun b => addRoundKey (shiftRows (subBytes b)) (roundKey w 10) :=
  (computes_subbytes.append (computes_shiftrows.append (computes_addroundkey 10)) :)

theorem computes_invFirstSteps :
    Computes w invFirstSteps fun b => invSubBytes (invShiftRows (addRoundKey b (roundKey w 10))) :=
  ((computes_addroundkey 10).append (computes_invshiftrows.append computes_invsubbytes) :)

theorem computes_invRoundSteps (p : Fin 11) :
    Computes w (invRoundSteps (BitVec.ofNat 4 p.val)) (invFullRound w · p) :=
  ((computes_addroundkey p).append
    (computes_invmixcolumns.append (computes_invshiftrows.append computes_invsubbytes)) :)

/-- The commands of ENCSTEPS between LDSTATE and RDSTATE (spec/30_encoding.md R83). -/
def encBody : List Instr :=
  [.addroundkey 0] ++ (middleRounds.flatMap (fun p => roundSteps (BitVec.ofNat 4 p.val)) ++ finalRoundSteps)

/-- The commands of DECSTEPS between LDSTATE and RDSTATE (spec/30_encoding.md R83). -/
def decBody : List Instr :=
  invFirstSteps ++
    (middleRounds.reverse.flatMap (fun p => invRoundSteps (BitVec.ofNat 4 p.val)) ++ [.addroundkey 0])

theorem encSteps_eq (b : Block) : encSteps b = .ldstate b :: (encBody ++ [.rdstate]) := rfl

theorem decSteps_eq (b : Block) : decSteps b = .ldstate b :: (decBody ++ [.rdstate]) := rfl

theorem computes_encBody (w : ExpandedKey) : Computes w encBody (encryptBlock w) :=
  ((computes_addroundkey 0).append
    ((computes_flatMap computes_roundSteps middleRounds).append computes_finalRoundSteps) :)

theorem computes_decBody (w : ExpandedKey) : Computes w decBody (decryptBlock w) :=
  (computes_invFirstSteps.append
    ((computes_flatMap computes_invRoundSteps middleRounds.reverse).append (computes_addroundkey 0)) :)

/-- Loading a block, computing on it and reading it back answers OK alone for each command but the last,
which answers with the result; S holds it. -/
theorem Computes.execAll_load_read {is : List Instr} {g : Block → Block} (h : Computes w is g) {s : State}
    (hw : s.W = some w) (b : Block) : execAll (.ldstate b :: (is ++ [.rdstate])) s = .next { s with
      S := some (g b)
      responses := s.responses ++ List.replicate (is.length + 1) [0x00] ++ [0x00 :: (g b).toList] } := by
  have loaded : execAll (.ldstate b :: (is ++ [.rdstate])) s = execAll (is ++ [.rdstate]) (s.computed 1 b) := rfl
  rw [loaded, execAll_append (h (s.computed 1 b) b hw rfl), State.computed_computed, Nat.add_comm]
  rfl

/-- Settles O31: the commands between LDSTATE and RDSTATE, forty in each sequence, compute the cipher. -/
theorem stepSequencesComputeTheCipher : Obligations.StepSequencesComputeTheCipher := by
  intro s w b hw
  refine ⟨⟨encryptBlock w b, ?_, (answersBlock_encrypt b).exec_of_key hw⟩,
    ⟨decryptBlock w b, ?_, (answersBlock_decrypt b).exec_of_key hw⟩⟩
  · exact (computes_encBody w).execAll_load_read hw b
  · exact (computes_decBody w).execAll_load_read hw b

end Sys2Proof.Machine
end

section
/-! ### The system commands: the statements of spec/46_system.md -/

namespace Sys2Proof.Machine

/-! #### NOP -/

/-- Settles O2: NOP only responds (R190). -/
theorem nopAnswersOkAndChangesNothing : Obligations.NopAnswersOkAndChangesNothing :=
  ⟨fun s _ => step_offer_cons_of_respond (o := .nop) rfl rfl (fun _ => rfl) s, fun _ => rfl⟩

/-! #### STATUS -/

/-- The bits of STATUS, one field of the register after another (spec/10_state.md R28). -/
theorem State.getLsbD_statusByte (s : State) (i : Nat) : s.statusByte.getLsbD i =
    if i = 0 then s.W.isSome else if i = 1 then s.S.isSome else false := by
  refine (BitVec.getLsbD_append (x := 0#6 ++ BitVec.ofBool s.stateValid)
    (y := BitVec.ofBool s.keyValid)).trans ?_
  rw [BitVec.getLsbD_append]
  rcases i with _ | _ | i <;> simp

theorem step_offer_status (s : State) (p : List Byte) : step (s.offer (0x01 :: p)) =
    if p.length ≠ 0 then .next (s.answered [0x03]) else execStatus { s with resetLine := false } :=
  step_offer_cons (o := .status) rfl rfl s

/-- Settles O3: the decoder checks the length, then the command responds with the register, whose bits are
`State.getLsbD_statusByte`. -/
theorem statusReportsTheTwoFlags : Obligations.StatusReportsTheTwoFlags := by
  refine ⟨fun s p => ?step, fun _ => rfl, fun s => ⟨s.getLsbD_statusByte 0, s.getLsbD_statusByte 1, ?rest⟩⟩
  case step =>
    rw [step_offer_status]
    split <;> rfl
  case rest =>
    intro i hi
    rw [s.getLsbD_statusByte, if_neg (by omega), if_neg (by omega)]

/-! #### CLEAR -/

theorem step_offer_clear (s : State) (p : List Byte) : step (s.offer (0x02 :: p)) =
    if p.length ≠ 0 then .next (s.answered [0x03]) else execClear { s with resetLine := false } :=
  step_offer_cons (o := .clear) rfl rfl s

/-- Settles O4: the decoder checks the length, and only then does the command drop both registers (R192). -/
theorem clearDropsKeyAndState : Obligations.ClearDropsKeyAndState := by
  refine ⟨fun s p => ?step, fun _ => rfl⟩
  case step =>
    rw [step_offer_clear]
    split <;> rfl

end Sys2Proof.Machine
end

section
/-! ### The host wrapper: the statements of spec/47_host_wrapper.md -/

namespace Sys2Proof.Machine

/-! #### pad and unpad -/

/-- What `pad` makes of `m` (spec/47_host_wrapper.md R201): whole blocks that end in `n` bytes `n`.
`padded_pad` and `unpad_outcome` tie it to the model. -/
def Padded (m data : List Byte) : Prop :=
  data.length % 16 = 0 ∧ ∃ n : Nat, 1 ≤ n ∧ n ≤ 16 ∧ data = m ++ List.replicate n (BitVec.ofNat 8 n)

theorem padded_pad (m : List Byte) : Padded m (pad m) := by
  refine ⟨?_, 16 - m.length % 16, by omega, by omega, rfl⟩
  rw [pad, List.length_append, List.length_replicate]
  omega

theorem length_pad (m : List Byte) : (pad m).length = m.length / 16 * 16 + 16 := by
  rw [pad, List.length_append, List.length_replicate]
  omega

theorem unpad_of_padded {m data : List Byte} (h : Padded m data) : unpad data = .ok m := by
  obtain ⟨hlen, n, hn, hn', rfl⟩ := h
  have last : (m ++ List.replicate n (BitVec.ofNat 8 n)).getD (m.length + n - 1) 0 = BitVec.ofNat 8 n := by
    rw [List.getD_append_right _ _ _ _ (by omega), List.getD_replicate _ (by omega)]
  have value : (BitVec.ofNat 8 n).toNat = n := by
    rw [BitVec.toNat_ofNat]
    omega
  rw [List.length_append, List.length_replicate] at hlen
  simp only [unpad, List.length_append, List.length_replicate, last, value, Nat.add_sub_cancel,
    List.drop_left, List.take_left]
  rw [if_neg (by omega), if_neg (by omega), if_neg (by omega), if_pos (by simp)]

/-- Everything `unpad` can do. -/
theorem unpad_outcome (data : List Byte) :
    unpad data = .error .paddingError ∨ ∃ m, unpad data = .ok m ∧ Padded m data := by
  simp only [unpad]
  generalize data.getD (data.length - 1) 0 = last
  split
  · exact .inl rfl
  split
  · exact .inl rfl
  next hlen =>
  split
  · exact .inl rfl
  next hn =>
  split
  · next hall =>
    refine .inr ⟨_, rfl, by omega, last.toNat, by omega, by omega, ?_⟩
    have tail : data.drop (data.length - last.toNat) = List.replicate last.toNat last :=
      List.eq_replicate_iff.mpr ⟨by rw [List.length_drop]; omega, by simpa using hall⟩
    rw [BitVec.ofNat_toNat, BitVec.setWidth_eq, ← tail, List.take_append_drop]
  · exact .inl rfl

/-- Settles O53: the outcomes of `unpad`, and that it accepts what is padded. -/
theorem unpadAcceptsExactlyPaddedData : Obligations.UnpadAcceptsExactlyPaddedData := by
  refine fun data => ⟨fun m => ⟨fun h => ?_, unpad_of_padded⟩, fun e h => ?_⟩
  · obtain herr | ⟨m', hok, hpad⟩ := unpad_outcome data
    · cases herr.symm.trans h
    · cases hok.symm.trans h
      exact hpad
  · obtain herr | ⟨m', hok, -⟩ := unpad_outcome data
    · cases herr.symm.trans h
      rfl
    · cases hok.symm.trans h

/-- Settles O52: what `pad` makes is padded, and `unpad` accepts it. -/
theorem padIsUndoneByUnpad : Obligations.PadIsUndoneByUnpad := fun m => by
  obtain ⟨hlen, hn⟩ := padded_pad m
  have longer := length_pad m
  exact ⟨hn, hlen, by omega, unpad_of_padded (padded_pad m)⟩

/-! #### Messages as blocks -/

theorem blocksOf_append {b : List Byte} (hb : b.length = 16) (m : List Byte) :
    blocksOf (b ++ m) = b :: blocksOf m := by
  have hlen : (b ++ m).length / 16 = m.length / 16 + 1 := by
    rw [List.length_append]
    omega
  have tail (j : Nat) : (b ++ m).drop (16 * (j + 1)) = m.drop (16 * j) := by
    rw [Nat.mul_succ, Nat.add_comm, ← List.drop_drop, List.drop_left' hb]
  simp only [blocksOf, hlen, List.range_succ_eq_map, List.map_cons, List.map_map, Function.comp_def, tail,
    Nat.mul_zero, List.drop_zero, List.take_left' hb]

theorem length_blockBytes (b : Block) : (blockBytes b).length = 16 := by
  simp [blockBytes]

theorem length_flatMap_blockBytes (bs : List Block) : (bs.flatMap blockBytes).length = 16 * bs.length := by
  simp only [List.length_flatMap, length_blockBytes, List.map_const', List.sum_replicate, smul_eq_mul,
    Nat.mul_comm]

theorem blocksOf_flatMap_blockBytes (bs : List Block) :
    blocksOf (bs.flatMap blockBytes) = bs.map blockBytes := by
  induction bs with
  | nil => rfl
  | cons b bs ih => rw [List.flatMap_cons, blocksOf_append (length_blockBytes b), ih, List.map_cons]

/-- A message of whole blocks is made of them. -/
theorem exists_blocks (n : Nat) (m : List Byte) (h : m.length = 16 * n) :
    ∃ bs : List Block, bs.flatMap blockBytes = m := by
  induction n generalizing m with
  | zero => exact ⟨[], (List.length_eq_zero_iff.mp h).symm⟩
  | succ n ih =>
    obtain ⟨bs, hbs⟩ := ih (m.drop 16) (by rw [List.length_drop]; omega)
    refine ⟨payloadBlock (m.take 16) :: bs, ?_⟩
    rw [List.flatMap_cons, hbs, blockBytes_payloadBlock (by rw [List.length_take]; omega),
      List.take_append_drop]

/-! #### One command and its answer -/

/-- The core as the host program expects it (log entry 16): nothing waits on either channel, and reset is
released. -/
structure State.Quiet (s : State) : Prop where
  commands : s.commands = []
  responses : s.responses = []
  resetLine : s.resetLine = false

section
variable {s t : State} {w : ExpandedKey}

/-- The registers have no part in it. -/
theorem State.Quiet.with_registers (hs : s.Quiet) {S : Option Block} {W : Option ExpandedKey}
    {SEQ : Sequencer} : { s with S := S, W := W, SEQ := SEQ }.Quiet :=
  ⟨hs.commands, hs.responses, hs.resetLine⟩

theorem State.Quiet.sendFrame_eq_offer (hs : s.Quiet) (f : Frame) : s.sendFrame f = s.offer f := by
  simp [State.sendFrame, State.offer, hs.commands, hs.resetLine]

theorem State.Quiet.takeResponse_answered (ht : t.Quiet) (r : Frame) :
    (t.answered r).takeResponse = some (r, t) := by
  cases t
  cases ht.responses
  cases ht.resetLine
  rfl

/-- Between two quiet states the host receives the answer to the frame it sent. -/
theorem transact_of_quiet {f r : Frame} (hs : s.Quiet) (ht : t.Quiet)
    (h : step (s.offer f) = .next (t.answered r)) : transact f s = (some r, t) := by
  simp only [transact, hs.sendFrame_eq_offer, h, ht.takeResponse_answered]

theorem loadKey_of_quiet (hs : s.Quiet) (key : Block) :
    loadKey (blockBytes key) s = (.ok (), { s with W := some (expandKey key) }) := by
  have answer : transact (Op.expandkey.row.opMatch :: blockBytes key) s =
      (some [statusCode .ok], { s with W := some (expandKey key) }) :=
    transact_of_quiet hs hs.with_registers (step_offer_ok (decodeEncodeRoundTrip (.expandkey key) rfl) s)
  rw [loadKey, answer]
  rfl

/-! #### One block command per block -/

/-- The frames of the row `o` with a block for payload are answered with a function `f` of W and the
block, and the core is quiet again with the same W. -/
def TransactsBlock (o : Op) (f : ExpandedKey → Block → Block) : Prop :=
  ∀ (s : State) (w : ExpandedKey) (b : Block), s.Quiet → s.W = some w →
    ∃ t, transact (o.row.opMatch :: blockBytes b) s = (some (statusCode .ok :: blockBytes (f w b)), t) ∧
      t.Quiet ∧ t.W = some w

theorem AnswersBlock.transact_encode {i : Instr} {f : ExpandedKey → Block} (h : AnswersBlock i f)
    (hi : i.wellFormed = true) (hs : s.Quiet) (hw : s.W = some w) :
    transact (encode i) s =
      (some (statusCode .ok :: blockBytes (f w)), { s with S := none, SEQ := .idle }) := by
  refine transact_of_quiet hs hs.with_registers ?_
  rw [h.step_offer hi, hw]
  rfl

theorem transactsBlock_encrypt : TransactsBlock .encrypt encryptBlock := fun _ _ b hs hw =>
  ⟨_, (answersBlock_encrypt b).transact_encode rfl hs hw, hs.with_registers, hw⟩

theorem transactsBlock_decrypt : TransactsBlock .decrypt decryptBlock := fun _ _ b hs hw =>
  ⟨_, (answersBlock_decrypt b).transact_encode rfl hs hw, hs.with_registers, hw⟩

theorem TransactsBlock.sendBlocks_eq {o : Op} {f : ExpandedKey → Block → Block} (h : TransactsBlock o f)
    (ho : o.row.result = 16) (hs : s.Quiet) (hw : s.W = some w) (bs : List Block) :
    ∃ t, sendBlocks o (bs.map blockBytes) s = (.ok ((bs.map (f w)).flatMap blockBytes), t) ∧ t.Quiet := by
  induction bs generalizing s with
  | nil => exact ⟨s, rfl, hs⟩
  | cons b bs ih =>
    obtain ⟨t, answer, ht, htw⟩ := h s w b hs hw
    obtain ⟨u, rest, hu⟩ := ih ht htw
    have accepted : okResult o.row.result (statusCode .ok :: blockBytes (f w b)) = some (blockBytes (f w b)) :=
      okResult_eq_some.mpr ⟨rfl, by rw [length_blockBytes, ho]⟩
    refine ⟨u, ?_, hu⟩
    simp only [List.map_cons, sendBlocks, answer, accepted, rest, List.flatMap_cons]

/-! #### The two host programs -/

theorem encryptEcb_of_quiet (hs : s.Quiet) (key : Block) {m : List Byte} {bs : List Block}
    (hm : bs.flatMap blockBytes = pad m) :
    ∃ t, encryptEcb m (blockBytes key) s =
      (.ok ((bs.map (encryptBlock (expandKey key))).flatMap blockBytes), t) ∧ t.Quiet := by
  obtain ⟨t, sent, ht⟩ := transactsBlock_encrypt.sendBlocks_eq (s := { s with W := some (expandKey key) })
    rfl hs.with_registers rfl bs
  refine ⟨t, ?_, ht⟩
  rw [encryptEcb, if_neg (not_not.mpr (length_blockBytes key)), loadKey_of_quiet hs key, ← hm,
    blocksOf_flatMap_blockBytes]
  exact sent

theorem decryptEcb_of_quiet (hs : s.Quiet) (key : Block) {bs : List Block} (hbs : bs ≠ []) :
    ∃ t, decryptEcb (bs.flatMap blockBytes) (blockBytes key) s =
      (unpad ((bs.map (decryptBlock (expandKey key))).flatMap blockBytes), t) := by
  obtain ⟨t, sent, -⟩ := transactsBlock_decrypt.sendBlocks_eq (s := { s with W := some (expandKey key) })
    rfl hs.with_registers rfl bs
  have whole := length_flatMap_blockBytes bs
  have nonempty := List.length_pos_iff.mpr hbs
  refine ⟨t, ?_⟩
  simp only [decryptEcb, loadKey_of_quiet hs key, blocksOf_flatMap_blockBytes, sent]
  rw [if_neg (by omega), if_neg (not_not.mpr (length_blockBytes key))]

end

/-- Settles O54: the padded message is whole blocks; each is encrypted and then decrypted under the same
expanded key, and `unpad` undoes the padding. -/
theorem ecbRoundTrip : Obligations.EcbRoundTrip := by
  intro s m key hkey hcommands hresponses hreset
  have hlen := length_pad m
  obtain ⟨bs, hbs⟩ := exists_blocks (m.length / 16 + 1) (pad m) (by omega)
  have count := length_flatMap_blockBytes bs
  rw [hbs] at count
  rw [← blockBytes_payloadBlock hkey]
  obtain ⟨t, encrypted, ht⟩ := encryptEcb_of_quiet ⟨hcommands, hresponses, hreset⟩ (payloadBlock key) hbs
  obtain ⟨u, decrypted⟩ := decryptEcb_of_quiet ht (payloadBlock key)
    (bs := bs.map (encryptBlock (expandKey (payloadBlock key))))
    (List.length_pos_iff.mp (by rw [List.length_map]; omega))
  refine ⟨_, t, u, encrypted, ?_, ?_⟩
  · rw [length_flatMap_blockBytes, List.length_map, count]
  · simpa only [List.map_map, Function.comp_def, decryptBlock_encryptBlock, List.map_id', hbs,
      unpad_of_padded (padded_pad m)] using decrypted

/-- Settles O55: the checks stand before the first command, the ciphertext's before the key's. -/
theorem ecbRejectsWrongLengths : Obligations.EcbRejectsWrongLengths := by
  refine fun s m key => ⟨fun hkey => if_pos hkey, fun hm => if_pos hm, fun hempty hwhole hkey => ?_⟩
  rw [decryptEcb, if_neg (not_or.mpr ⟨hempty, not_not.mpr hwhole⟩), if_pos hkey]

end Sys2Proof.Machine
end

section
/-! ### Errors and completion: the statements of spec/60_exceptions.md -/

namespace Sys2Proof.Machine

variable {s t : State} {i : Instr} {r : Frame} {e : Status}

/-! #### Every step completes -/

/-- Every step ends in a next state: under reset, with a frame waiting, or with none. -/
theorem step_total (s : State) : safeStep s := by
  obtain ⟨answered, idle, reset⟩ := oneResponsePerFrameAndNoOther
  cases hr : s.resetLine with
  | true =>
    obtain ⟨t, h, -⟩ := reset s hr
    exact ⟨t, h⟩
  | false =>
    cases hc : s.commands with
    | nil => exact ⟨s, idle s hr hc⟩
    | cons f rest =>
      obtain ⟨t, r, h, -⟩ := answered s f rest hr hc
      exact ⟨t, h⟩

/-- Settles O35. -/
theorem everyCommandAndStepCompletes : Obligations.EveryCommandAndStepCompletes :=
  ⟨exec_total, step_total⟩

/-! #### A failed command has no effect -/

/-- Of the effects a command can have, the one answered with a first byte other than 0x00 is the failure,
which only emits its status (spec/60_exceptions.md R222). -/
theorem exec_not_ok (h : exec i s = .next t) (ht : t.responses = s.responses ++ [r])
    (hr : r.head? ≠ some 0x00) : ∃ e, r = [statusCode e] ∧ t = s.emit e [] := by
  cases exec_effect h with
  | @failed _ e _ => exact ⟨e, by simpa using ht.symm, rfl⟩
  | answered | cleared | keyExpanded | stateLoaded | stateRewritten | blockRun =>
    obtain rfl := List.append_singleton_inj.mp ht |>.2
    exact absurd rfl hr

/-- Settles O36: a rejected frame is only answered, and a decoded command fails as `exec_not_ok` says. -/
theorem failedCommandHasNoEffect : Obligations.FailedCommandHasNoEffect := by
  intro s t f r rest hreset hc h ht hr
  cases hd : decode f with
  | error e =>
    obtain rfl : { s with commands := rest }.emit e [] = t :=
      Host.Outcome.next.inj ((step_of_decode_error hreset hc hd).symm.trans h)
    obtain rfl : [statusCode e] = r := by simpa using ht
    exact ⟨rfl, rfl⟩
  | ok i =>
    rw [step_of_decode_ok hreset hc hd] at h
    obtain ⟨e, rfl, rfl⟩ := exec_not_ok h ht hr
    exact ⟨rfl, rfl⟩

/-! #### The order of errors: what the decoder rejects -/

/-- The length status of a legal opcode (spec/30_encoding.md R75). -/
def lengthError (op : Byte) : Status :=
  if op = 0x30 then .invalidKeyLength
  else if op ∈ ([0x40, 0x60, 0x61] : List Byte) then .invalidBlockLength
  else .invalidOperandLength

/-- The rows of the opcode map agree with `lengthError`, by inspection of the 32 legal opcodes. -/
theorem hasFormat_lengthError : ∀ op ∈ legalOpcodes,
    ∃ n ∈ [0, 1, 2, 4, 16], hasFormat op n (lengthError op) = true := by decide

/-- What a rejected frame is answered with: its opcode is looked at before its length
(spec/60_exceptions.md R224, 1 and 2). -/
theorem decode_cons_error {op : Byte} {p : List Byte} (h : decode (op :: p) = .error e) :
    e = if decode [op] = .error .illegalOpcode then .illegalOpcode else lengthError op := by
  by_cases hop : op ∈ legalOpcodes
  · obtain ⟨n, -, hformat⟩ := hasFormat_lengthError op hop
    obtain ⟨accepted, rejected⟩ := decode_of_hasFormat (p := p) hformat
    have hl : p.length ≠ n := fun hl => by
      obtain ⟨i, hi⟩ := accepted hl
      cases h.symm.trans hi
    rw [if_neg (decode_cons_illegalOpcode_iff_not_mem.not_left.mpr hop)]
    exact Except.error.inj (h.symm.trans (rejected hl))
  · rw [if_pos (decode_cons_illegalOpcode_iff_not_mem.mpr hop)]
    exact Except.error.inj (h.symm.trans (decode_cons_illegalOpcode_iff_not_mem.mpr hop))

/-! #### The order of errors: what a command checks -/

/-- The status a command ends with: the first of its checks that fails, or OK (spec/60_exceptions.md R224,
3 to 5, and R225). `exec_answers` ties it to the model. -/
def answerStatus (s : State) : Instr → Status
  | .rdrk k => if 10 < k.toNat then .invalidRoundIndex else if s.W = none then .noKey else .ok
  | .addroundkey k =>
    if 10 < k.toNat then .illegalOpcode
    else if s.W = none then .noKey
    else if s.S = none then .noState else .ok
  | .encrypt _ | .decrypt _ => if s.W = none then .noKey else .ok
  | .rdstate | .subbytes | .invsubbytes | .shiftrows | .invshiftrows | .mixcolumns | .invmixcolumns =>
    if s.S = none then .noState else .ok
  | .nop | .status | .clear | .xtime _ | .gfmul _ _ | .subbyte _ | .invsubbyte _
  | .expandkey _ | .rotword _ | .subword _ | .ldstate _ => .ok

/-- `t` has one response more than `s`, and its status is `e`. -/
def AnswersWith (s : State) (e : Status) (t : State) : Prop :=
  ∃ result, t.responses = s.responses ++ [statusCode e :: result]

theorem emit_answersWith (s : State) (e : Status) (result : List Byte) :
    AnswersWith s e (s.emit e result) := ⟨result, rfl⟩

theorem withKey_answersWith {k : ExpandedKey → Result} (h : withKey s k = .next t)
    (hk : ∀ w, k w = .next t → AnswersWith s e t) :
    AnswersWith s (if s.W = none then .noKey else e) t := by
  obtain ⟨hw, rfl⟩ | ⟨w, hw, h⟩ := withKey_next h
  · rw [if_pos hw]
    exact emit_answersWith ..
  · rw [if_neg (by simp [hw])]
    exact hk w h

theorem withState_answersWith {k : Block → Result} (h : withState s k = .next t)
    (hk : ∀ b, k b = .next t → AnswersWith s e t) :
    AnswersWith s (if s.S = none then .noState else e) t := by
  obtain ⟨hb, rfl⟩ | ⟨b, hb, h⟩ := withState_next h
  · rw [if_pos hb]
    exact emit_answersWith ..
  · rw [if_neg (by simp [hb])]
    exact hk b h

/-- A command that only responds answers OK, whatever registers it wrote first. -/
theorem respond_answersWith {s' : State} {result : List Byte} (h : respond result s' = .next t)
    (hs : s'.responses = s.responses) : AnswersWith s .ok t :=
  respond_next.mp h ▸ ⟨result, by rw [State.emit_responses, hs]⟩

theorem transformState_answersWith {f : Block → Block} (h : transformState f s = .next t) :
    AnswersWith s (if s.S = none then .noState else .ok) t :=
  withState_answersWith h fun _ h => respond_answersWith h rfl

theorem execRdrk_answersWith {k : Byte} (h : execRdrk k s = .next t) :
    AnswersWith s (answerStatus s (.rdrk k)) t := by
  by_cases hk : 10 < k.toNat
  · rw [execRdrk_of_ge hk, raise_next] at h
    rw [answerStatus, if_pos hk]
    exact h ▸ emit_answersWith ..
  · rw [execRdrk_of_toNat_eq (j := ⟨k.toNat, by omega⟩) rfl] at h
    rw [answerStatus, if_neg hk]
    exact withKey_answersWith h fun _ h => respond_answersWith h rfl

theorem execAddroundkey_of_ge {k : BitVec 4} (hk : 11 ≤ k.toNat) (s : State) :
    execAddroundkey k s = raise .illegalOpcode s := by
  rw [execAddroundkey, roundNumber_of_ge hk]

theorem execAddroundkey_answersWith {k : BitVec 4} (h : execAddroundkey k s = .next t) :
    AnswersWith s (answerStatus s (.addroundkey k)) t := by
  by_cases hk : 10 < k.toNat
  · rw [execAddroundkey_of_ge hk, raise_next] at h
    rw [answerStatus, if_pos hk]
    exact h ▸ emit_answersWith ..
  · rw [execAddroundkey_of_toNat_eq (j := ⟨k.toNat, by omega⟩) rfl] at h
    rw [answerStatus, if_neg hk]
    exact withKey_answersWith h fun _ => transformState_answersWith

/-- Every command answers with the status of `answerStatus`. -/
theorem exec_answersWith (h : exec i s = .next t) : AnswersWith s (answerStatus s i) t := by
  cases i with
  | rdrk => exact execRdrk_answersWith h
  | addroundkey => exact execAddroundkey_answersWith h
  | rdstate => exact withState_answersWith h fun _ h => respond_answersWith h rfl
  | subbytes | invsubbytes | shiftrows | invshiftrows | mixcolumns | invmixcolumns =>
    exact transformState_answersWith h
  | encrypt | decrypt => exact withKey_answersWith h fun _ h => respond_answersWith h rfl
  | nop | status | clear | xtime | gfmul | subbyte | invsubbyte | expandkey | rotword | subword | ldstate =>
    exact respond_answersWith h rfl

theorem addroundkey_round_le_of_wellFormed {k : BitVec 4} (h : (Instr.addroundkey k).wellFormed = true) :
    k.toNat ≤ 10 :=
  (of_decide_eq_true h : k ≤ 10#4)

/-- Settles O48: the decoder's order is `decode_cons_error`, and a command's is `answerStatus`, of which a
decoded command cannot take the branch of a round key that does not exist. -/
theorem firstErrorIsAnswered : Obligations.FirstErrorIsAnswered := by
  refine fun s op p => ⟨fun e he => ?rejected, fun i hi ⟨r, h, hr⟩ => ?failed⟩
  case rejected =>
    rw [step_offer_error he s, decode_cons_error he]
    unfold lengthError
    split_ifs <;> rfl
  case failed =>
    obtain ⟨result, hresult⟩ := exec_answersWith h
    obtain ⟨rfl, rfl⟩ : r = statusCode (answerStatus s i) ∧ [] = result := by simpa using hresult
    have hstatus : answerStatus s i ≠ .ok := fun hok => hr (statusCode_eq_zero.mpr hok)
    rw [h]
    cases i with
    | rdrk k =>
      by_cases hk : 10 < k.toNat
      · simp [answerStatus, hk, statusCode]
      · have hW : s.W = none := by simpa [answerStatus, hk] using hstatus
        simp [answerStatus, hk, hW, statusCode]
    | addroundkey k =>
      have hk : ¬10 < k.toNat := (addroundkey_round_le_of_wellFormed (encodeDecodeRoundTrip _ _ hi).1).not_gt
      by_cases hW : s.W = none
      · simp [answerStatus, hk, hW, statusCode]
      · have hS : s.S = none := by simpa [answerStatus, hk, hW] using hstatus
        simp [answerStatus, hk, hW, hS, statusCode]
    | encrypt | decrypt =>
      have hW : s.W = none := by simpa [answerStatus] using hstatus
      simp [answerStatus, hW, statusCode]
    | rdstate | subbytes | invsubbytes | shiftrows | invshiftrows | mixcolumns | invmixcolumns =>
      have hS : s.S = none := by simpa [answerStatus] using hstatus
      simp [answerStatus, hS, statusCode]
    | nop | status | clear | xtime | gfmul | subbyte | invsubbyte | expandkey | rotword | subword | ldstate =>
      exact absurd rfl hstatus

end Sys2Proof.Machine
end

section
/-! ### Reset, initialisation and what events leave: the statements of spec/70_reset_and_hazards.md -/

namespace Sys2Proof.Machine

variable {s t : State} {i : Instr} {is : List Instr}

/-! #### What each event leaves valid -/

/-- Settles O41, by what a command can do. A failure answers with another first byte than 0x00 and keeps both
registers; every other effect answers OK, and its command is in that effect's row of R253. -/
theorem whatEachEventLeavesValid : Obligations.WhatEachEventLeavesValid := by
  refine ⟨fun s => ⟨rfl, rfl⟩, fun i s t r h ht => ?_⟩
  split_ifs with hr
  · cases exec_effect h with
    | failed he =>
      obtain rfl := (List.append_singleton_inj.mp ht).2
      exact absurd (statusCode_eq_zero.mp (Option.some.inj hr)) he
    | answered hi =>
      cases i with
      | nop | status | xtime | gfmul | subbyte | invsubbyte | rdrk | rotword | subword | rdstate =>
        exact ⟨rfl, rfl⟩
      | _ => cases hi
    | cleared | keyExpanded | stateLoaded => exact ⟨rfl, rfl⟩
    | stateRewritten _ hi hb =>
      cases i with
      | addroundkey | subbytes | invsubbytes | shiftrows | invshiftrows | mixcolumns | invmixcolumns =>
        exact ⟨rfl, Option.isSome_of_eq_some hb, rfl⟩
      | _ => simp [Instr.rewritesState] at hi
    | blockRun _ hi => obtain rfl | rfl := hi <;> exact ⟨rfl, rfl⟩
  · obtain ⟨e, -, rfl⟩ := exec_not_ok h ht hr
    exact ⟨rfl, rfl⟩

/-! #### The key stays -/

/-- A sequence that ends in a next state passes through the one its first command leaves. -/
theorem execAll_cons_next (h : execAll (i :: is) s = .next t) :
    ∃ u, exec i s = .next u ∧ execAll is u = .next t := by
  obtain ⟨u, hu⟩ := exec_total i s
  rw [execAll, hu] at h
  exact ⟨u, hu, h⟩

/-- Commands other than CLEAR and EXPANDKEY keep W (spec/10_state.md R31). -/
theorem execAll_keeps_W (his : ∀ i ∈ is, i ≠ .clear ∧ ∀ key, i ≠ .expandkey key)
    (h : execAll is s = .next t) : t.W = s.W := by
  induction is generalizing s with
  | nil => cases h; rfl
  | cons i is ih =>
    obtain ⟨hi, his⟩ := List.forall_mem_cons.mp his
    obtain ⟨u, hu, h⟩ := execAll_cons_next h
    have head : u.W = s.W := by
      obtain hW | ⟨rfl, -⟩ | ⟨key, rfl, -⟩ := exec_W hu
      · exact hW
      · exact absurd rfl hi.1
      · exact absurd rfl (hi.2 key)
    exact (ih his h).trans head

/-- Settles O43: EXPANDKEY leaves the expanded key in W, the other commands keep it, and its round key 0 is the
key. -/
theorem keyStaysReadable : Obligations.KeyStaysReadable := by
  intro s t key is his h
  obtain ⟨u, hu, h⟩ := execAll_cons_next h
  obtain rfl := respond_next.mp hu
  have hW : t.W = some (expandKey key) := execAll_keeps_W his h
  calc exec (.rdrk 0) t
    _ = respond (blockBytes (roundKeyBytes (roundKey (expandKey key) 0))) t :=
      (execRdrk_of_toNat_eq (k := 0) (j := 0) rfl t).trans (withKey_some hW _)
    _ = _ := by rw [roundKeyBytes_expandKey_zero]; rfl

/-! #### The reset input -/

theorem step_of_resetLine (hr : s.resetLine = true) : step s = .next s.enterReset := by
  simp [step, hr]

/-- Settles O39. Each move enters the reset state, a command cut short after its frame is taken; the frames
left are survivors of those that waited. -/
theorem resetInputGivesTheResetState : Obligations.ResetInputGivesTheResetState := by
  refine ⟨fun s hr => ?asserted, fun s => ?released, fun s f rest hr hc => ?cutShort⟩
  case asserted => exact ⟨_, step_of_resetLine hr, rfl, rfl, rfl, hr, rfl, s.framesAfterReset_sublist⟩
  case released => exact ⟨rfl, rfl, rfl, rfl, rfl, s.framesAfterReset_sublist⟩
  case cutShort =>
    rw [State.cutByReset_cons hr hc]
    exact ⟨rfl, rfl, rfl, rfl, rfl, State.framesAfterReset_sublist { s with commands := rest }⟩

/-! #### Commands sent before their key or state -/

/-- A round number fits the operands of RDRK (8 bits) and ADDROUNDKEY (4 bits). -/
theorem toNat_ofNat_roundNumber {n : Nat} (hn : 11 ≤ 2 ^ n) (k : Fin 11) :
    (BitVec.ofNat n k.val).toNat = k.val :=
  Nat.mod_eq_of_lt (k.isLt.trans_le hn)

/-- Settles O42. RDRK and ADDROUNDKEY name an existing round key, so their first check is for the key;
ADDROUNDKEY then rewrites S as the round commands do. -/
theorem missingKeyOrStateIsAnswered : Obligations.MissingKeyOrStateIsAnswered := by
  refine ⟨fun s k b hW => ⟨?rdrk, ?encrypt, ?decrypt, ?addroundkey⟩, fun s i hS hi => ?noState,
    fun s k hW hS => ?keyOnly⟩
  case rdrk => exact (execRdrk_of_toNat_eq (toNat_ofNat_roundNumber (by decide) k) s).trans (withKey_none hW _)
  case encrypt => exact (answersBlock_encrypt b).exec_of_no_key hW
  case decrypt => exact (answersBlock_decrypt b).exec_of_no_key hW
  case addroundkey =>
    exact (execAddroundkey_of_toNat_eq (toNat_ofNat_roundNumber (by decide) k) s).trans (withKey_none hW _)
  case noState =>
    cases i with
    | rdstate => exact withState_none hS _
    | subbytes | invsubbytes | shiftrows | invshiftrows | mixcolumns | invmixcolumns =>
      exact transformState_none hS _
    | _ => simp at hi
  case keyOnly =>
    obtain ⟨w, hw⟩ := Option.ne_none_iff_exists'.mp hW
    calc exec (.addroundkey (BitVec.ofNat 4 k.val)) s
      _ = transformState (addRoundKey · (roundKey w k)) s :=
        (execAddroundkey_of_toNat_eq (toNat_ofNat_roundNumber (by decide) k) s).trans (withKey_some hw _)
      _ = _ := transformState_none hS _

end Sys2Proof.Machine
end
